-- ==== Sys2Proof/Word.lean ====
section
/-! DEFINITION. The widths of the values of the codec core (`00_scope.md` R7, R9) and the type of a constant table. -/

namespace Sys2Proof

/-- A data value: 4 significant bits (R7 DATA_BITS). -/
abbrev DataValue := BitVec 4

/-- A codeword or a received word: 7 bits, parity in bits 6:4, data in bits 3:0 (R7 CODE_BITS, R24). -/
abbrev Codeword := BitVec 7

/-- A syndrome: 3 bits (R7 PARITY_BITS). -/
abbrev Syndrome := BitVec 3

/-- One storage unit of the packed decode table: two nibbles (R8 PDEC_UNIT). -/
abbrev PackedUnit := BitVec 8

/-- The command word `CW[9:0]`, opcode in bits 9:7 and operand in bits 6:0 (R60). -/
abbrev CommandWord := BitVec 10

/-- The response word `RW[7:0]`, `rsp_ill` in bit 7 and `rsp_val` in bits 6:0 (R61). -/
abbrev ResponseWord := BitVec 8

/-- A read-only table of `n` entries, index 0 first (`20_memory.md` R40).
There is no write operation (R42). -/
structure Table (α : Type) (n : Nat) where
  entries : List α
  size_eq : entries.length = n
  deriving DecidableEq, Repr

end Sys2Proof
end

