-- ==== Sys2Proof/Syntax.lean ====
section
/-! DEFINITION. The command set `HAM74-CMD` version 1 as syntax (`00_scope.md` R2, `30_encoding.md` R63),
and the lines a host writes (R70). -/

namespace Sys2Proof

/-- The eight opcodes of R63, in their numerical order. -/
inductive Opcode where
  | par | encM | encT | syn | decM | decT | decP | rsvd7
  deriving DecidableEq, Repr

/-- An opcode's spelling (R63; `RSVD7` is R70's). -/
def Opcode.mnemonic : Opcode → String
  | .par => "PAR"
  | .encM => "ENC.M"
  | .encT => "ENC.T"
  | .syn => "SYN"
  | .decM => "DEC.M"
  | .decT => "DEC.T"
  | .decP => "DEC.P"
  | .rsvd7 => "RSVD7"

/-- The result width of each opcode (R63, `opcode_table.json`): the low bits of `rsp_val` that carry the result. -/
def Opcode.resultWidth : Opcode → Nat
  | .par => 1
  | .encM => 7
  | .encT => 7
  | .syn => 3
  | .decM => 4
  | .decT => 4
  | .decP => 4
  | .rsvd7 => 0

/-- The commands, one constructor per row of `opcode_table.json`.
A command keeps the operand bits that it ignores, so that no bit of its word is lost. -/
inductive Instr where
  /-- `PAR v`, pattern `000vvvvvvv` (R80). -/
  | par (v : BitVec 7)
  /-- `ENC.M d`, pattern `001xxxdddd` (R90). -/
  | encM (ignored : BitVec 3) (d : DataValue)
  /-- `ENC.T d`, pattern `010xxxdddd` (R91). -/
  | encT (ignored : BitVec 3) (d : DataValue)
  /-- `SYN c`, pattern `011ccccccc` (R100). -/
  | syn (c : Codeword)
  /-- `DEC.M c`, pattern `100ccccccc` (R101). -/
  | decM (c : Codeword)
  /-- `DEC.T c`, pattern `101ccccccc` (R104). -/
  | decT (c : Codeword)
  /-- `DEC.P c`, pattern `110ccccccc` (R105). -/
  | decP (c : Codeword)
  /-- The reserved opcode, pattern `111xxxxxxx` (R66). -/
  | rsvd7 (ignored : BitVec 7)
  deriving DecidableEq, Repr

/-- The opcode of a command. -/
def Instr.opcode : Instr → Opcode
  | .par _ => .par
  | .encM _ _ => .encM
  | .encT _ _ => .encT
  | .syn _ => .syn
  | .decM _ => .decM
  | .decT _ => .decT
  | .decP _ => .decP
  | .rsvd7 _ => .rsvd7

/-- A command's mnemonic in `opcode_table.json`. -/
def Instr.mnemonic (i : Instr) : String := i.opcode.mnemonic

/-- An operand as the host writes it (R70): a literal, `r<k>` (the `rsp_val` of line k, lines numbered from 1),
and `^`, `&`, `|` of operands.
This is host arithmetic, not an operation of the block. -/
inductive HostExpr where
  | lit (n : Nat)
  | rsp (k : Nat)
  | xor (a b : HostExpr)
  | and (a b : HostExpr)
  | or (a b : HostExpr)
  deriving DecidableEq, Repr

/-- One line of a host's program: exactly one command word (R70, R71). -/
structure Line where
  op : Opcode
  operand : HostExpr
  deriving DecidableEq, Repr

end Sys2Proof
end

