-- ==== Sys2Proof/WellFormed.lean ====
section
/-! DEFINITION. What a well-formed command and a well-formed line of a host's program are (`30_encoding.md` R64 to R71). -/

namespace Sys2Proof

/-- Every command is well formed: its fields have exactly the widths of the pattern, and every operand value has a
defined response (R67). Written out per constructor so that a new command must be thought about. -/
def Instr.wellFormed : Instr → Bool
  | .par _ => true
  | .encM _ _ => true
  | .encT _ _ => true
  | .syn _ => true
  | .decM _ => true
  | .decT _ => true
  | .decP _ => true
  | .rsvd7 _ => true

/-- The commands whose response the source itself vouches for: an operation, with no bit outside the declared width
of its operand (R65, `93_implementation_defined.md` U1, U7).
A claim that must not rest on decision D9 or D10 takes this as its premise (log 2, log 6). -/
def Instr.inSourceDomain : Instr → Bool
  | .par _ => true
  | .encM ignored _ => ignored == 0#3
  | .encT ignored _ => ignored == 0#3
  | .syn _ => true
  | .decM _ => true
  | .decT _ => true
  | .decP _ => true
  | .rsvd7 _ => false

/-- An operand of a line that `n` lines come before: each literal is a 7-bit value ("An operand above 0x7F is an
assembly error", R70) and each `r<k>` names one of those `n` lines, numbered from 1. -/
def HostExpr.wellFormed (n : Nat) : HostExpr → Bool
  | .lit v => decide (v ≤ 0x7F)
  | .rsp k => decide (1 ≤ k) && decide (k ≤ n)
  | .xor a b => a.wellFormed n && b.wellFormed n
  | .and a b => a.wellFormed n && b.wellFormed n
  | .or a b => a.wellFormed n && b.wellFormed n

/-- A program that `n` lines come before: each line's operand refers to earlier lines only (R13, R70). -/
def programWellFormed : Nat → List Line → Bool
  | _, [] => true
  | n, l :: rest => l.operand.wellFormed n && programWellFormed (n + 1) rest

end Sys2Proof
end

