-- ==== Sys2Proof/Decode.lean ====
section
/-! DEFINITION. Command words to commands and back (`30_encoding.md` R60, R63 to R68). -/

namespace Sys2Proof

/-- The 3-bit number of an opcode (R63). -/
def Opcode.bits : Opcode → BitVec 3
  | .par => 0
  | .encM => 1
  | .encT => 2
  | .syn => 3
  | .decM => 4
  | .decT => 5
  | .decP => 6
  | .rsvd7 => 7

/-- The opcode that a 3-bit number names: 3 bits have exactly eight values (R63). -/
def Opcode.ofBits (b : BitVec 3) : Opcode :=
  match (b.toFin : Fin 8) with
  | 0 => .par
  | 1 => .encM
  | 2 => .encT
  | 3 => .syn
  | 4 => .decM
  | 5 => .decT
  | 6 => .decP
  | 7 => .rsvd7

/-- The "match" column of R63: a word `w` selects the row where `w & 0x380` is this. -/
def Opcode.matchBits : Opcode → CommandWord
  | .par => 0x000
  | .encM => 0x080
  | .encT => 0x100
  | .syn => 0x180
  | .decM => 0x200
  | .decT => 0x280
  | .decP => 0x300
  | .rsvd7 => 0x380

/-- The "mask" column of R63, the same for every row. -/
def Opcode.mask : CommandWord := 0x380

/-- The opcode field `CW[9:7]` (R60). -/
def opField (cw : CommandWord) : BitVec 3 := cw.extractLsb' 7 3

/-- The operand field `CW[6:0]` (R60). -/
def argField (cw : CommandWord) : BitVec 7 := cw.extractLsb' 0 7

/-- The ignored bits `cmd_arg[6:4]` of an encode operand (R65). -/
def ignoredField (arg : BitVec 7) : BitVec 3 := arg.extractLsb' 4 3

/-- The data value `cmd_arg[3:0]` of an encode operand (R64). -/
def dataField (arg : BitVec 7) : DataValue := arg.extractLsb' 0 4

/-- Decoding is total on the 1024 command words: 7 x 128 of them name an operation and 128 the reserved opcode (R67). -/
def decode (cw : CommandWord) : Instr :=
  match Opcode.ofBits (opField cw) with
  | .par => .par (argField cw)
  | .encM => .encM (ignoredField (argField cw)) (dataField (argField cw))
  | .encT => .encT (ignoredField (argField cw)) (dataField (argField cw))
  | .syn => .syn (argField cw)
  | .decM => .decM (argField cw)
  | .decT => .decT (argField cw)
  | .decP => .decP (argField cw)
  | .rsvd7 => .rsvd7 (argField cw)

/-- Why a number is no command word. -/
inductive DecodeError where
  /-- Raised by `decodeBits` on a number of 2^10 or more: the port has 10 wires and no other (R60, D16). Safe. -/
  | noSuchWire
  deriving DecidableEq, Repr

/-- Decoding of any number whatever: one that the 10 wires of the port cannot carry is rejected by name. -/
def decodeBits (w : Nat) : Except DecodeError Instr :=
  if w < 1024 then .ok (decode (BitVec.ofNat 10 w)) else .error .noSuchWire

/-- Decoding in the numbering of `opcode_table.json`: bit 0 of `w` is `CW[0]`, bit 9 is `CW[9]`.
A command is one word of 10 bits (R68), so `_nbits` selects nothing; in the table's whole bytes it is 16, and
bits 15:10 have no wire (log 9). -/
def decodeTableWord (_nbits w : Nat) : Option Instr :=
  match decodeBits w with
  | .ok i => some i
  | .error _ => none

/-- The 7 operand bits of a command, the ignored ones with the rest (R63, R64). -/
def Instr.operandBits : Instr → BitVec 7
  | .par v => v
  | .encM ignored d => ignored ++ d
  | .encT ignored d => ignored ++ d
  | .syn c => c
  | .decM c => c
  | .decT c => c
  | .decP c => c
  | .rsvd7 ignored => ignored

/-- The command word `{cmd_op, cmd_arg}` of an opcode and an operand (R60, R70). -/
def commandWord (op : Opcode) (arg : BitVec 7) : CommandWord := op.bits ++ arg

/-- The command word of a command (R60, R63). -/
def encode (i : Instr) : CommandWord := commandWord i.opcode i.operandBits

end Sys2Proof
end

