-- ==== Sys2Proof/Machine/State.lean ====
section
/-! DEFINITION. The state of the model: the four port signals of the block (`30_encoding.md` R60, R61) and the run
round it (`00_scope.md` R13). The block itself stores nothing (`10_state.md` R20 to R23, R37, R38; log 1). -/

namespace Sys2Proof.Machine

/-- The faults of the hardware. -/
inductive Fault where
  /-- Raised by the reserved opcode 7, for every operand (`60_exceptions.md` R120). It does not stop the block (R122,
  R126): the meaning of `RSVD7` answers a next state whose response has `rsp_ill` = 1, and this name is what the
  observation of the run shows at that place. Safe (log 2). -/
  | illegalCommand
  deriving DecidableEq, Repr

/-- Why a step answers no next state. None of these is about what an instruction does. -/
inductive Refusal where
  /-- Raised by an arm of `exec` whose instruction has no meaning yet; no arm is such. Safe. -/
  | notModelled (mnemonic : String)
  /-- Raised by `step` when the host presents no further command: the run has ended (`00_scope.md` R13; log 7). Safe. -/
  | endOfRun
  /-- Raised by `step` when the host's next line has no command word: a literal above 0x7F (an assembly error, R70),
  or an `r<k>` of a line that has no response yet (log 8). Safe. -/
  | operandHasNoValue
  deriving DecidableEq, Repr

/-- A response: the 8 output bits for one command word (`00_scope.md` R13, `30_encoding.md` R61). -/
structure Response where
  ill : BitVec 1
  val : BitVec 7
  deriving DecidableEq, Repr

/-- The state of a run. -/
structure State where
  /-- Input wires `cmd_op[2:0]` (R60). -/
  cmdOp : BitVec 3
  /-- Input wires `cmd_arg[6:0]` (R60). -/
  cmdArg : BitVec 7
  /-- Output wire `rsp_ill` (R61). -/
  rspIll : BitVec 1
  /-- Output wires `rsp_val[6:0]` (R61). -/
  rspVal : BitVec 7
  /-- The commands the host has still to present, the next one first (R13). -/
  pending : List Line
  /-- The command words presented so far, the oldest first: the model's own record (log 14). -/
  presented : List CommandWord
  /-- The responses so far, the oldest first: the observation of the run (R13, R122). -/
  responses : List Response
  deriving DecidableEq, Repr

/-- The block as powered, before the host presents a command. There is no reset (`70_reset_and_hazards.md` R140): the
port carries zeros by DESIGN CHOICE (log 3), and the outputs are the response to that word (`10_state.md` R39).
No program is loaded (log 9). -/
def State.reset : State where
  cmdOp := 0
  cmdArg := 0
  rspIll := 0
  rspVal := 0
  pending := []
  presented := []
  responses := []

end Sys2Proof.Machine
end

