-- ==== Sys2Proof/Machine/Flags.lean ====
section
/-! DEFINITION. The one status bit of the hardware, the wire `rsp_ill` (`10_state.md` R23, `30_encoding.md` R61), and
what an observer of a run makes of it (`60_exceptions.md` R122). No flag is stored. -/

namespace Sys2Proof.Machine

/-- `rsp_ill` of every opcode but the reserved one (R67). -/
def illClear : BitVec 1 := 0

/-- `rsp_ill` of the reserved opcode (R66). -/
def illRaised : BitVec 1 := 1

/-- One entry of the observation of a run: a fault is "distinct from a value" (R122). -/
inductive Observed where
  | value (v : BitVec 7)
  | fault (f : Fault)
  deriving DecidableEq, Repr

/-- A response as observed. With `rsp_ill` = 1 the value "carries no information" (R120), and none is shown. -/
def Response.observed (r : Response) : Observed :=
  if r.ill = illRaised then .fault .illegalCommand else .value r.val

/-- The response word `{rsp_ill, rsp_val[6:0]}` (R61). -/
def Response.word (r : Response) : ResponseWord := r.ill ++ r.val

end Sys2Proof.Machine
end

