-- ==== Sys2Proof/Machine/Ops.lean ====
section
/-! DEFINITION. The shared operations: the table read, putting a command on the port, driving a response, and raising
the one fault. -/

namespace Sys2Proof.Machine

/-- `T[i]`, the whole entry of a table at an index inside its range (`20_memory.md` R40). -/
def readTable {α : Type} {n : Nat} (t : Table α n) (i : Fin n) : α :=
  t.entries.get (i.cast t.size_eq.symm)

/-- `T[i]` for an index of `w` bits into a table of `2^w` entries: no index is out of range (R40). -/
def readTableAt {α : Type} {w : Nat} (t : Table α (2 ^ w)) (i : BitVec w) : α :=
  readTable t i.toFin

/-- The host puts a command word on the input port and holds it there (`60_exceptions.md` R132). -/
def present (cw : CommandWord) (s : State) : State :=
  { s with cmdOp := opField cw, cmdArg := argField cw, presented := s.presented ++ [cw] }

/-- The block drives a response: both output buses, and one more entry of the observation (`00_scope.md` R11, R13). -/
def drive (r : Response) (s : State) : State :=
  { s with rspIll := r.ill, rspVal := r.val, responses := s.responses ++ [r] }

/-- The end of every operation: `rsp_val <- v`, `rsp_ill <- 0` (R67). -/
def answer (v : BitVec 7) (s : State) : Host.Outcome State Fault Refusal :=
  .next (drive ⟨illClear, v⟩ s)

/-- Taking the exception `IllegalCommand`: `rsp_ill` = 1, `rsp_val` = 0000000b, and nothing else (`60_exceptions.md`
R120, R125). Nothing is saved, so there is no return from it: the next command is served as if this one had not been
presented (R126). -/
def raiseIllegalCommand (s : State) : Host.Outcome State Fault Refusal :=
  .next (drive ⟨illRaised, 0⟩ s)

end Sys2Proof.Machine
end

