-- ==== Sys2Proof/Machine/Operands.lean ====
section
/-! DEFINITION. Operand forms and result placement (`30_encoding.md` R62, R64, `20_memory.md` R43, R46), and the
operands a host computes (R70). -/

namespace Sys2Proof.Machine

/-- A result in the low bits of `rsp_val`, the bits above it 0 (R62). -/
def zext7 {w : Nat} (v : BitVec w) : BitVec 7 := v.setWidth 7

/-- The unit index `c[6:1]` of a packed access: the integer quotient `c / 2` (R43 (c)). -/
def unitIndex (c : Codeword) : BitVec 6 := c.extractLsb' 1 6

/-- `nib(u, c)`: the low nibble for an odd word, the high nibble for an even one (R46, `90_conflicts.md` C3). -/
def nib (u : PackedUnit) (c : Codeword) : DataValue :=
  if c.getLsbD 0 then u.extractLsb' 0 4 else u.extractLsb' 4 4

end Sys2Proof.Machine

namespace Sys2Proof

/-- The value of a host's operand, given the responses so far: `r<k>` is the `rsp_val` of line k, numbered from 1 (R70).
No value where a literal is above 0x7F or a line has not responded yet (log 8). -/
def HostExpr.eval (rs : List Machine.Response) : HostExpr → Option (BitVec 7)
  | .lit n => if n ≤ 0x7F then some (BitVec.ofNat 7 n) else none
  | .rsp 0 => none
  | .rsp (k + 1) => (rs[k]?).map Machine.Response.val
  | .xor a b =>
    match a.eval rs, b.eval rs with
    | some x, some y => some (x ^^^ y)
    | _, _ => none
  | .and a b =>
    match a.eval rs, b.eval rs with
    | some x, some y => some (x &&& y)
    | _, _ => none
  | .or a b =>
    match a.eval rs, b.eval rs with
    | some x, some y => some (x ||| y)
    | _, _ => none

/-- The command word of a line, `(opcode << 7) | operand` (R70). -/
def Line.word (rs : List Machine.Response) (l : Line) : Option CommandWord :=
  (l.operand.eval rs).map (commandWord l.op)

end Sys2Proof
end

