-- ==== Sys2Proof/Machine/Tables.lean ====
section
/-! DEFINITION. The six constant tables, as printed in `10_state.md` section 3.
They are wired constants (R39), read and never written (`20_memory.md` R42). -/

namespace Sys2Proof.Machine

/-- GT, the transposed generator matrix: row `i` makes codeword bit `6-i` (R25).
PRESUMED, unsafe: nine of its bits are the spec's general knowledge, D5 and K1 (log 4). -/
def Tables.GT : Table DataValue 7 :=
  ⟨[0b0111, 0b1011, 0b1101, 0b1000, 0b0100, 0b0010, 0b0001], by decide⟩

/-- H, the parity-check matrix: row `j` makes syndrome bit `2-j` (R27).
PRESUMED, unsafe for `SYN`: the order of the rows is the spec's general knowledge, D6 and K2 (log 5). -/
def Tables.H : Table Codeword 3 :=
  ⟨[0b1000111, 0b0101011, 0b0011101], by decide⟩

/-- SMASK, the syndrome-to-correction-mask table (R29). -/
def Tables.SMASK : Table Codeword (2 ^ 3) :=
  ⟨[0x00, 0x10, 0x20, 0x08, 0x40, 0x04, 0x02, 0x01], by decide⟩

/-- ENC_ROM, the encode table (R31). -/
def Tables.ENC_ROM : Table Codeword (2 ^ 4) :=
  ⟨[0x00, 0x71, 0x62, 0x13, 0x54, 0x25, 0x36, 0x47] ++
   [0x38, 0x49, 0x5A, 0x2B, 0x6C, 0x1D, 0x0E, 0x7F], by decide⟩

/-- DEC_ROM, the decode table, one row of R33 a line: the row is `c[6:4]`, the column `c[3:0]`. -/
def Tables.DEC_ROM : Table DataValue (2 ^ 7) :=
  ⟨[0x0, 0x0, 0x0, 0x3, 0x0, 0x5, 0xE, 0x7, 0x0, 0x9, 0xE, 0xB, 0xE, 0xD, 0xE, 0xE] ++
   [0x0, 0x3, 0x3, 0x3, 0x4, 0xD, 0x6, 0x3, 0x8, 0xD, 0xA, 0x3, 0xD, 0xD, 0xE, 0xD] ++
   [0x0, 0x5, 0x2, 0xB, 0x5, 0x5, 0x6, 0x5, 0x8, 0xB, 0xB, 0xB, 0xC, 0x5, 0xE, 0xB] ++
   [0x8, 0x1, 0x6, 0x3, 0x6, 0x5, 0x6, 0x6, 0x8, 0x8, 0x8, 0xB, 0x8, 0xD, 0x6, 0xF] ++
   [0x0, 0x9, 0x2, 0x7, 0x4, 0x7, 0x7, 0x7, 0x9, 0x9, 0xA, 0x9, 0xC, 0x9, 0xE, 0x7] ++
   [0x4, 0x1, 0xA, 0x3, 0x4, 0x4, 0x4, 0x7, 0xA, 0x9, 0xA, 0xA, 0x4, 0xD, 0xA, 0xF] ++
   [0x2, 0x1, 0x2, 0x2, 0xC, 0x5, 0x2, 0x7, 0xC, 0x9, 0x2, 0xB, 0xC, 0xC, 0xC, 0xF] ++
   [0x1, 0x1, 0x2, 0x1, 0x4, 0x1, 0x6, 0xF, 0x8, 0x1, 0xA, 0xF, 0xC, 0xF, 0xF, 0xF], by simp⟩

/-- PDEC_ROM, the packed decode table: unit `i` holds the results for words `2i` (high nibble) and `2i+1` (R35). -/
def Tables.PDEC_ROM : Table PackedUnit (2 ^ 6) :=
  ⟨[0x00, 0x03, 0x05, 0xE7, 0x09, 0xEB, 0xED, 0xEE] ++
   [0x03, 0x33, 0x4D, 0x63, 0x8D, 0xA3, 0xDD, 0xED] ++
   [0x05, 0x2B, 0x55, 0x65, 0x8B, 0xBB, 0xC5, 0xEB] ++
   [0x81, 0x63, 0x65, 0x66, 0x88, 0x8B, 0x8D, 0x6F] ++
   [0x09, 0x27, 0x47, 0x77, 0x99, 0xA9, 0xC9, 0xE7] ++
   [0x41, 0xA3, 0x44, 0x47, 0xA9, 0xAA, 0x4D, 0xAF] ++
   [0x21, 0x22, 0xC5, 0x27, 0xC9, 0x2B, 0xCC, 0xCF] ++
   [0x11, 0x21, 0x41, 0x6F, 0x81, 0xAF, 0xCF, 0xFF], rfl⟩

end Sys2Proof.Machine
end

