-- ==== Sys2Proof/Machine/Reference.lean ====
section
/-! DEFINITION. The reference functions of `00_scope.md` R12, as the sequential algorithms the spec writes.
Those that read a matrix take it as an argument, so that the laws of the code can be stated of any matrix. -/

namespace Sys2Proof.Machine

/-- The seven positions the parity sum visits (R81; the order does not matter). -/
def positions : List Nat := [0, 1, 2, 3, 4, 5, 6]

/-- The running count of `par7`: the set bits among positions 6:0, at most 7, so 3 bits hold it (R10, R81). -/
def popcount7 (v : BitVec 7) : BitVec 3 :=
  positions.foldl (fun n k => if v.getLsbD k then n + 1 else n) 0

/-- `par7(v)`: bit 0 of the count (R12). -/
def par7 (v : BitVec 7) : BitVec 1 := (popcount7 v).extractLsb' 0 1

/-- `enc(d)` over a transposed generator matrix: row 0 first, each inner product appended at the low end (R12, R90). -/
def encWith (gt : Table DataValue 7) (d : DataValue) : Codeword :=
  gt.entries.foldl (fun r row => (r <<< 1) ^^^ zext7 (par7 (zext7 (row &&& d)))) 0

/-- `syn(c)` over a parity-check matrix: row 0 first, each inner product appended at the low end (R12, R100). -/
def synWith (h : Table Codeword 3) (c : Codeword) : Syndrome :=
  h.entries.foldl (fun s row => (s <<< 1) ^^^ (par7 (row &&& c)).setWidth 3) 0

/-- The corrected codeword `c ^ SMASK[syn(c)]` (R101 steps 1 to 3). -/
def correctWith (h : Table Codeword 3) (smask : Table Codeword (2 ^ 3)) (c : Codeword) : Codeword :=
  c ^^^ readTableAt smask (synWith h c)

/-- `dec(c)`: the corrected codeword masked down to its 4 data bits (R12, R101 step 4). -/
def decWith (h : Table Codeword 3) (smask : Table Codeword (2 ^ 3)) (c : Codeword) : DataValue :=
  (correctWith h smask c).extractLsb' 0 4

/-- `enc` of this hardware. -/
def enc (d : DataValue) : Codeword := encWith Tables.GT d

/-- `syn` of this hardware. -/
def syn (c : Codeword) : Syndrome := synWith Tables.H c

/-- The correction mask `SMASK[syn(c)]` (R101 step 2). -/
def correctionMask (c : Codeword) : Codeword := readTableAt Tables.SMASK (syn c)

/-- The corrected codeword of this hardware, `fix` of R101. -/
def correct (c : Codeword) : Codeword := correctWith Tables.H Tables.SMASK c

/-- `dec` of this hardware. -/
def dec (c : Codeword) : DataValue := decWith Tables.H Tables.SMASK c

/-- One read of the encode table (R91). -/
def encRom (d : DataValue) : Codeword := readTableAt Tables.ENC_ROM d

/-- One read of the decode table (R104). -/
def decRom (c : Codeword) : DataValue := readTableAt Tables.DEC_ROM c

/-- One read of the packed table and the nibble select (R105). -/
def decPacked (c : Codeword) : DataValue := nib (readTableAt Tables.PDEC_ROM (unitIndex c)) c

end Sys2Proof.Machine
end

