-- ==== Sys2Proof/Machine/Decoder.lean ====
section
/-! DEFINITION. The decoder's commands (`42_decode.md`). Words with two or more wrong bits get their computed value
like any other (R109). -/

namespace Sys2Proof.Machine

/-- `SYN c`, the syndrome of a received word (R100). -/
def execSyn (c : Codeword) (s : State) : Host.Outcome State Fault Refusal :=
  answer (zext7 (syn c)) s

/-- `DEC.M c`, the matrix method with single-bit correction (R101). -/
def execDecM (c : Codeword) (s : State) : Host.Outcome State Fault Refusal :=
  answer (zext7 (dec c)) s

/-- `DEC.T c`, one read of the decode table (R104). -/
def execDecT (c : Codeword) (s : State) : Host.Outcome State Fault Refusal :=
  answer (zext7 (decRom c)) s

/-- `DEC.P c`, one read of the packed table and a nibble select (R105). -/
def execDecP (c : Codeword) (s : State) : Host.Outcome State Fault Refusal :=
  answer (zext7 (decPacked c)) s

end Sys2Proof.Machine
end

