-- ==== Sys2Proof/Machine/Encoder.lean ====
section
/-! DEFINITION. The encoder's commands (`41_encode.md`). Both ignore `cmd_arg[6:4]` (R65; log 6). -/

namespace Sys2Proof.Machine

/-- `ENC.M d`, the matrix method (R90). -/
def execEncM (_ignored : BitVec 3) (d : DataValue) (s : State) : Host.Outcome State Fault Refusal :=
  answer (enc d) s

/-- `ENC.T d`, one read of the encode table (R91). -/
def execEncT (_ignored : BitVec 3) (d : DataValue) (s : State) : Host.Outcome State Fault Refusal :=
  answer (encRom d) s

end Sys2Proof.Machine
end

