-- ==== Sys2Proof/Machine/Parity.lean ====
section
/-! DEFINITION. The parity generator's command (`40_parity.md`). -/

namespace Sys2Proof.Machine

/-- `PAR v` (R80). -/
def execPar (v : BitVec 7) (s : State) : Host.Outcome State Fault Refusal :=
  answer (zext7 (par7 v)) s

end Sys2Proof.Machine
end

