-- ==== Sys2Proof/Machine/Reserved.lean ====
section
/-! DEFINITION. The reserved opcode (`30_encoding.md` R66). -/

namespace Sys2Proof.Machine

/-- Opcode 7: it takes the exception `IllegalCommand`, and the operand is not looked at (R66, `60_exceptions.md` R120,
R124). The block goes on (R122, R126; log 2). -/
def execRsvd7 (_ignored : BitVec 7) (s : State) : Host.Outcome State Fault Refusal :=
  raiseIllegalCommand s

end Sys2Proof.Machine
end

