-- ==== Sys2Proof/Machine/Dispatch.lean ====
section
/-! DEFINITION. One arm per command. -/

namespace Sys2Proof.Machine

def exec (i : Instr) (s : State) : Host.Outcome State Fault Refusal :=
  match i with
  | .par v => Sys2Proof.Machine.execPar v s
  | .encM x d => Sys2Proof.Machine.execEncM x d s
  | .encT x d => Sys2Proof.Machine.execEncT x d s
  | .syn c => Sys2Proof.Machine.execSyn c s
  | .decM c => Sys2Proof.Machine.execDecM c s
  | .decT c => Sys2Proof.Machine.execDecT c s
  | .decP c => Sys2Proof.Machine.execDecP c s
  | .rsvd7 x => Sys2Proof.Machine.execRsvd7 x s

end Sys2Proof.Machine
end

