-- ==== Sys2Proof/Machine/Fetch.lean ====
section
/-! DEFINITION. How the next command comes onto the port. The block fetches nothing (`10_state.md` R21): the host takes
the next line of its list, computes the operand and presents the word (`00_scope.md` R13, `60_exceptions.md` R132). -/

namespace Sys2Proof.Machine

/-- The next command word and the state with that word held on the port, or why there is none (log 7, log 8). -/
def fetch (s : State) : Except Refusal (CommandWord × State) :=
  match s.pending with
  | [] => .error .endOfRun
  | l :: rest =>
    match l.word s.responses with
    | none => .error .operandHasNoValue
    | some cw => .ok (cw, present cw { s with pending := rest })

/-- The line that presents a given command word: its opcode and its operand as a literal. -/
def lineOfWord (cw : CommandWord) : Line :=
  ⟨Opcode.ofBits (opField cw), .lit (argField cw).toNat⟩

/-- The host is to present these lines before those it already has. -/
def load (program : List Line) (s : State) : State :=
  { s with pending := program ++ s.pending }

end Sys2Proof.Machine
end

