-- ==== Sys2Proof/Machine/Step.lean ====
section
/-! DEFINITION. One step: the host presents its next command word, and the block drives the response to it
(`00_scope.md` R13; log 14). -/

namespace Sys2Proof.Machine

/-- The block serves a command word that the host puts on the port (`30_encoding.md` R61). -/
def serve (cw : CommandWord) (s : State) : Host.Outcome State Fault Refusal :=
  exec (decode cw) (present cw s)

/-- One step of a run. -/
def step (s : State) : Host.Outcome State Fault Refusal :=
  match fetch s with
  | .error r => .refused r
  | .ok (cw, t) => exec (decode cw) t

/-- `s` with the command word `w` (numbered as `opcode_table.json` numbers it) as the next one the host presents.
The port has 10 wires, so bits of `w` above bit 9 reach nothing (log 9). -/
def State.withFetchWord (s : State) (_nbits w : Nat) : State :=
  load [lineOfWord (BitVec.ofNat 10 w)] s

end Sys2Proof.Machine
end

