-- ==== Sys2Proof/Machine/Assembler.lean ====
section
/-! DEFINITION. The text of one command line, `<mnemonic> <operand> ; comment`, to its command word
(`30_encoding.md` R70; log 15). It is a notation of the spec, not a part of the block. -/

namespace Sys2Proof

/-- The spelling of an opcode, upper case, the dot a part of the name (R70). -/
def Opcode.spelling : Opcode → List Char
  | .par => ['P', 'A', 'R']
  | .encM => ['E', 'N', 'C', '.', 'M']
  | .encT => ['E', 'N', 'C', '.', 'T']
  | .syn => ['S', 'Y', 'N']
  | .decM => ['D', 'E', 'C', '.', 'M']
  | .decT => ['D', 'E', 'C', '.', 'T']
  | .decP => ['D', 'E', 'C', '.', 'P']
  | .rsvd7 => ['R', 'S', 'V', 'D', '7']

/-- The opcode that a word spells. -/
def Opcode.ofSpelling (w : List Char) : Option Opcode :=
  [Opcode.par, .encM, .encT, .syn, .decM, .decT, .decP, .rsvd7].find? fun op => op.spelling == w

/-- The value of one digit in a base, if it is a digit of that base. -/
def digitValue (base : Nat) (ch : Char) : Option Nat :=
  let n := ch.toNat
  let v := if 48 ≤ n ∧ n ≤ 57 then n - 48 else if 65 ≤ n ∧ n ≤ 70 then n - 55 else if 97 ≤ n ∧ n ≤ 102 then n - 87 else base
  if v < base then some v else none

/-- The value of a nonempty string of digits, the first digit the most significant. -/
def digitsValue (base : Nat) (w : List Char) : Option Nat :=
  if w.isEmpty then none
  else w.foldl (fun acc ch =>
    match acc, digitValue base ch with
    | some a, some v => some (a * base + v)
    | _, _ => none) (some 0)

/-- A value "written `0x..` in hexadecimal, `...b` in binary or in decimal" (R70). -/
def numeralValue (w : List Char) : Option Nat :=
  match w with
  | '0' :: 'x' :: ds => digitsValue 16 ds
  | _ => if w.getLast? = some 'b' then digitsValue 2 w.dropLast else digitsValue 10 w

/-- The words of a line, split at spaces; `current` is the word being read. -/
def splitWords (current : List Char) : List Char → List (List Char)
  | [] => if current.isEmpty then [] else [current]
  | ' ' :: rest => if current.isEmpty then splitWords [] rest else current :: splitWords [] rest
  | ch :: rest => splitWords (current ++ [ch]) rest

/-- The command word `(opcode << 7) | operand`; no word where the operand is above 0x7F, "an assembly error, since it
has no encoding" (R70). -/
def assemble (op : Opcode) (operand : Nat) : Option CommandWord :=
  if operand ≤ 0x7F then some (commandWord op (BitVec.ofNat 7 operand)) else none

/-- The command word of a line of text: every line is exactly one command word (R71). -/
def assembleText (text : List Char) : Option CommandWord :=
  match splitWords [] (text.takeWhile (· ≠ ';')) with
  | [w, n] =>
    match Opcode.ofSpelling w, numeralValue n with
    | some op, some v => assemble op v
    | _, _ => none
  | _ => none

end Sys2Proof
end

