-- ==== Sys2Proof/Machine/Candidates.lean ====
section
/-! DEFINITION. Where the tables come from: the derivation of every table from the parity patterns of the four data bits
(`10_state.md` R26, R27, R30, R32, R34, R36), and the six generator candidates that the source leaves
(`41_encode.md` R95, `92_eei_decisions.md` D5; log 4). -/

namespace Sys2Proof.Machine

/-- The parity pattern `c[6] c[5] c[4]` that each data bit contributes (R95). -/
structure Patterns where
  p0 : BitVec 3
  p1 : BitVec 3
  p2 : BitVec 3
  p3 : BitVec 3
  deriving DecidableEq, Repr

/-- The parity row that pattern bit `k` makes, written `d3 d2 d1 d0` as a row of GT. -/
def Patterns.parityRow (p : Patterns) (k : Nat) : DataValue :=
  BitVec.ofBool (p.p3.getLsbD k) ++ BitVec.ofBool (p.p2.getLsbD k) ++
  BitVec.ofBool (p.p1.getLsbD k) ++ BitVec.ofBool (p.p0.getLsbD k)

/-- GT of a choice of patterns: three parity rows and then the identity (R25, R95 (ii)). -/
def Patterns.gt (p : Patterns) : Table DataValue 7 :=
  ⟨[p.parityRow 2, p.parityRow 1, p.parityRow 0, 0x8, 0x4, 0x2, 0x1], rfl⟩

/-- H of a transposed generator: row `j` is `GT[j]` zero-extended, with bit `6-j` set (R27). -/
def hOf (gt : Table DataValue 7) : Table Codeword 3 :=
  ⟨[zext7 (readTable gt 0) ||| 0x40, zext7 (readTable gt 1) ||| 0x20, zext7 (readTable gt 2) ||| 0x10], rfl⟩

/-- The mask of the one bit whose single-bit word has syndrome `s`, or no bit (R30). -/
def maskOf (h : Table Codeword 3) (s : Syndrome) : Codeword :=
  match positions.find? (fun b => synWith h (1 <<< b) == s) with
  | some b => 1 <<< b
  | none => 0

/-- SMASK of a parity-check matrix (R30). -/
def smaskOf (h : Table Codeword 3) : Table Codeword (2 ^ 3) :=
  ⟨(List.range 8).map fun s => maskOf h (BitVec.ofNat 3 s), by simp⟩

/-- ENC_ROM "precomputed via the matrix method" (R31, R32). -/
def encRomOf (gt : Table DataValue 7) : Table Codeword (2 ^ 4) :=
  ⟨(List.range 16).map fun d => encWith gt (BitVec.ofNat 4 d), by simp⟩

/-- DEC_ROM, by "running every possible codeword through the matrix decoder ahead of time" (R34). -/
def decRomOf (h : Table Codeword 3) (smask : Table Codeword (2 ^ 3)) : Table DataValue (2 ^ 7) :=
  ⟨(List.range 128).map fun c => decWith h smask (BitVec.ofNat 7 c), by simp⟩

/-- PDEC_ROM: "even-indexed codeword's value in the high nibble, odd-indexed in the low nibble" (R35, R36). -/
def pdecRomOf (decTable : Table DataValue (2 ^ 7)) : Table PackedUnit (2 ^ 6) :=
  ⟨(List.range 64).map fun i =>
    readTableAt decTable (BitVec.ofNat 7 (2 * i)) ++ readTableAt decTable (BitVec.ofNat 7 (2 * i + 1)), by simp⟩

/-- The six candidates of D5. -/
inductive Candidate where
  | a | b | c | d | e | f
  deriving DecidableEq, Repr

/-- The parity patterns of each candidate, columns d0, d1, d2, d3 of D5's table. -/
def Candidate.patterns : Candidate → Patterns
  | .a => ⟨0b111, 0b011, 0b101, 0b110⟩
  | .b => ⟨0b111, 0b011, 0b110, 0b101⟩
  | .c => ⟨0b111, 0b101, 0b011, 0b110⟩
  | .d => ⟨0b111, 0b101, 0b110, 0b011⟩
  | .e => ⟨0b111, 0b110, 0b011, 0b101⟩
  | .f => ⟨0b111, 0b110, 0b101, 0b011⟩

/-- The encoder of a choice of patterns. -/
def Patterns.enc (p : Patterns) (d : DataValue) : Codeword := encWith p.gt d

/-- The decoder of a choice of patterns, with its own parity-check matrix and correction table. -/
def Patterns.dec (p : Patterns) (c : Codeword) : DataValue :=
  decWith (hOf p.gt) (smaskOf (hOf p.gt)) c

/-- What the source's own vectors and its single-bit property say of a generator (R95 (iii) to (v)). -/
def Patterns.meetsSource (p : Patterns) : Prop :=
  p.enc 0x1 = 0x71 ∧ p.enc 0xF = 0x7F ∧
    ∀ d : DataValue, ∀ b : Fin 7, p.dec (p.enc d ^^^ (1 <<< b.val)) = d

end Sys2Proof.Machine
end

