-- ==== Sys2Proof/Machine/Respond.lean ====
section
/-! DEFINITION. The whole behaviour of the block as the one function of `30_encoding.md` R61, from the 10 input wires to
the 8 output wires, written from that rule and not from the meanings of the commands. -/

namespace Sys2Proof.Machine

/-- `respond(CW)` (R61). -/
def respond (cw : CommandWord) : Response :=
  let arg : BitVec 7 := cw.extractLsb' 0 7
  match (cw.extractLsb' 7 3).toNat with
  | 0 => ⟨0, zext7 (par7 arg)⟩
  | 1 => ⟨0, enc (arg.extractLsb' 0 4)⟩
  | 2 => ⟨0, readTableAt Tables.ENC_ROM (arg.extractLsb' 0 4)⟩
  | 3 => ⟨0, zext7 (syn arg)⟩
  | 4 => ⟨0, zext7 (dec arg)⟩
  | 5 => ⟨0, zext7 (readTableAt Tables.DEC_ROM arg)⟩
  | 6 => ⟨0, zext7 (nib (readTableAt Tables.PDEC_ROM (arg.extractLsb' 1 6)) arg)⟩
  | _ => ⟨1, 0b0000000⟩

end Sys2Proof.Machine
end

