-- ==== Sys2Proof/Machine/Gates.lean ====
section
/-! DEFINITION. The second design the spec gives: the same block as XOR trees and gates, with neither a count nor a
matrix nor the correction table (`92_eei_decisions.md` D20, rules R81, R93, R100, R102). -/

namespace Sys2Proof.Machine

/-- The parity unit as a tree of six XOR gates (`40_parity.md` R81). -/
def parGates (v : BitVec 7) : Bool :=
  ((v.getLsbD 0 ^^ v.getLsbD 1) ^^ (v.getLsbD 2 ^^ v.getLsbD 3)) ^^ ((v.getLsbD 4 ^^ v.getLsbD 5) ^^ v.getLsbD 6)

/-- The encoder as three 3-input XORs and four wires (`41_encode.md` R93). -/
def encGates (d : DataValue) : Codeword :=
  BitVec.ofBool (d.getLsbD 2 ^^ d.getLsbD 1 ^^ d.getLsbD 0) ++
  BitVec.ofBool (d.getLsbD 3 ^^ d.getLsbD 1 ^^ d.getLsbD 0) ++
  BitVec.ofBool (d.getLsbD 3 ^^ d.getLsbD 2 ^^ d.getLsbD 0) ++ d

/-- Syndrome bit 2 (`42_decode.md` R100). -/
def synGate2 (c : Codeword) : Bool := c.getLsbD 6 ^^ c.getLsbD 2 ^^ c.getLsbD 1 ^^ c.getLsbD 0
/-- Syndrome bit 1 (R100). -/
def synGate1 (c : Codeword) : Bool := c.getLsbD 5 ^^ c.getLsbD 3 ^^ c.getLsbD 1 ^^ c.getLsbD 0
/-- Syndrome bit 0 (R100). -/
def synGate0 (c : Codeword) : Bool := c.getLsbD 4 ^^ c.getLsbD 3 ^^ c.getLsbD 2 ^^ c.getLsbD 0

/-- The syndrome as gates (R100). -/
def synGates (c : Codeword) : Syndrome :=
  BitVec.ofBool (synGate2 c) ++ BitVec.ofBool (synGate1 c) ++ BitVec.ofBool (synGate0 c)

/-- The decoder as gates: each data bit is flipped by its own syndrome (R102). -/
def decGates (c : Codeword) : DataValue :=
  BitVec.ofBool (c.getLsbD 3 ^^ (!synGate2 c && synGate1 c && synGate0 c)) ++
  BitVec.ofBool (c.getLsbD 2 ^^ (synGate2 c && !synGate1 c && synGate0 c)) ++
  BitVec.ofBool (c.getLsbD 1 ^^ (synGate2 c && synGate1 c && !synGate0 c)) ++
  BitVec.ofBool (c.getLsbD 0 ^^ (synGate2 c && synGate1 c && synGate0 c))

/-- The block built of gates; every decode and encode command shares the one encoder and the one decoder. -/
def respondGates (cw : CommandWord) : Response :=
  let arg : BitVec 7 := cw.extractLsb' 0 7
  match (cw.extractLsb' 7 3).toNat with
  | 0 => ⟨0, zext7 (BitVec.ofBool (parGates arg))⟩
  | 1 | 2 => ⟨0, encGates (arg.extractLsb' 0 4)⟩
  | 3 => ⟨0, zext7 (synGates arg)⟩
  | 4 | 5 | 6 => ⟨0, zext7 (decGates arg)⟩
  | _ => ⟨1, 0⟩

end Sys2Proof.Machine
end

