-- ==== Sys2Proof/Config.lean ====
section
/-! DEFINITION. The parameters of the block (`00_scope.md` R7, R8).
The two that the spec leaves OPEN are opaque: nothing can be proved of their values, and no rule reads them. -/

namespace Sys2Proof

/-- DATA_BITS (R7). -/
def Config.dataBits : Nat := 4
/-- PARITY_BITS (R7). -/
def Config.parityBits : Nat := 3
/-- CODE_BITS (R7). -/
def Config.codeBits : Nat := 7
/-- SYN_VALUES (R7). -/
def Config.synValues : Nat := 8
/-- ENC_ENTRIES (R7). -/
def Config.encEntries : Nat := 16
/-- DEC_ENTRIES (R7). -/
def Config.decEntries : Nat := 128
/-- PDEC_ENTRIES (R7). -/
def Config.pdecEntries : Nat := 64
/-- PAR_WIDTH (R7). -/
def Config.parWidth : Nat := 7
/-- PDEC_UNIT (R8, decided in D12). -/
def Config.pdecUnit : Nat := 8
/-- OP_BITS (R8, decided in D3). -/
def Config.opBits : Nat := 3
/-- ARG_BITS (R8, decided in D2). -/
def Config.argBits : Nat := 7

/-- T_PD, the settling time from an input change to a settled output: OPEN (R8, R144, D15).
UNVERIFIED, safe: the model represents no time and reads it nowhere (log 10). -/
opaque Config.tPd : Nat

/-- How many instances a platform has beyond the first: OPEN (R8, D14; log 11). -/
opaque Config.moreInstances : Nat

/-- N_INST: "any number of 1 or more" (R8). -/
def Config.nInst : Nat := Config.moreInstances + 1

end Sys2Proof
end

