-- ==== Sys2Proof/Machine/Platform.lean ====
section
/-! DEFINITION. A platform of several instances (`60_exceptions.md` R131): they have no identifier but their place,
share nothing and send each other nothing. -/

namespace Sys2Proof.Machine

/-- The instances of a platform. -/
abbrev Platform := List State

/-- A platform as powered: N_INST instances, N_INST open (R8, D14). -/
def Platform.reset : Platform := List.replicate Config.nInst State.reset

/-- Some host presents a command word to instance `k` and samples its response. -/
def Platform.serveAt (p : Platform) (k : Nat) (cw : CommandWord) : Platform :=
  p.modify k fun s =>
    match serve cw s with
    | .next t => t
    | .fault _ => s
    | .refused _ => s

/-- An interleaving of the commands of any number of hosts: which instance, and which word, in order. -/
def Platform.serveAll (p : Platform) (schedule : List (Nat × CommandWord)) : Platform :=
  schedule.foldl (fun q e => q.serveAt e.1 e.2) p

/-- The words that a schedule gives instance `k`, in order. -/
def wordsFor (k : Nat) (schedule : List (Nat × CommandWord)) : List CommandWord :=
  (schedule.filter fun e => e.1 == k).map Prod.snd

end Sys2Proof.Machine
end

