-- ==== Sys2Proof/Safety.lean ====
section
/-! DEFINITION. What a good run is (`60_exceptions.md` R122), what an observer of a run sees (`00_scope.md` R13), and
the invariant that ties the wires and the trace to the command words. -/

namespace Sys2Proof.Machine

/-- The number of bits set in a value, counted on integers: the vocabulary of claims about parity and about how many bits
of a word are wrong (`00_scope.md` R10). It is written apart from `popcount7`, which the block computes. -/
def weight {w : Nat} (v : BitVec w) : Nat := (List.range w).countP v.getLsbD

/-- An odd number of bits is set: the modulo-2 sum of R10. -/
def oddWeight {w : Nat} (v : BitVec w) : Bool := weight v % 2 == 1

/-- The observation of a run: its responses in order, a fault distinct from a value (R13, R122). -/
def State.observation (s : State) : List Observed := s.responses.map Response.observed

/-- A run is good when "no response in the trace has `rsp_ill == 1`" (R122). The fault is kept by the trace, so that a
later good response cannot hide it. -/
def State.good (s : State) : Bool := s.responses.all fun r => r.ill == 0#1

/-- The outputs are the response to the word on the port now, and the observation is the list of responses to the words
presented: nothing else enters either (`10_state.md` R22, R39). -/
def State.Inv (s : State) : Prop :=
  (⟨s.rspIll, s.rspVal⟩ : Response) = respond (s.cmdOp ++ s.cmdArg) ∧ s.responses = s.presented.map respond

end Sys2Proof.Machine
end

