-- ==== Sys2Proof/Certificates/Slice0/Obligations.lean ====
section
/-! DEFINITION. The statements for the provers. Each says what a numbered rule of spec/ says, or what follows from the
sections that it names. -/

open Sys2Proof Sys2Proof.Machine

-- == The commands: what each answers, from every state ==

/-- R80. `PAR v` answers the oddness of the number of set bits among all seven positions; nothing else changes. -/
def Obligations.ParAnswersOddness : Prop :=
  ∀ (v : BitVec 7) (s : State), decode (0#3 ++ v) = .par v ∧
    exec (.par v) s = .next { s with
      rspIll := 0, rspVal := if weight v % 2 = 1 then 1 else 0,
      responses := s.responses ++ [⟨0, if weight v % 2 = 1 then 1 else 0⟩] }

/-- R90. `ENC.M d` answers the word whose bit `6-i` is the GF(2) inner product of row `i` of GT with `d`; the bits 6:4 of
the operand do not matter and the data bits stay in place. -/
def Obligations.EncMAnswersInnerProducts : Prop :=
  ∀ (x : BitVec 3) (d : DataValue) (s : State), decode (1#3 ++ x ++ d) = .encM x d ∧
    ∃ v : Codeword, exec (.encM x d) s = .next { s with
        rspIll := 0, rspVal := v, responses := s.responses ++ [⟨0, v⟩] } ∧
      (∀ i : Fin 7, ∃ row, Tables.GT.entries[i.val]? = some row ∧ v.getLsbD (6 - i.val) = oddWeight (row &&& d)) ∧
      v.extractLsb' 0 4 = d

/-- The three parity equations and four wires of `41_encode.md` section 3 (R93, which the spec derives from its own
matrix, decision D5, log 4). -/
def Obligations.EncMAnswersParityEquations : Prop :=
  ∀ (x : BitVec 3) (d : DataValue) (s : State),
    ∃ v : Codeword, exec (.encM x d) s = .next { s with
        rspIll := 0, rspVal := v, responses := s.responses ++ [⟨0, v⟩] } ∧
      v.getLsbD 6 = (d.getLsbD 2 ^^ d.getLsbD 1 ^^ d.getLsbD 0) ∧
      v.getLsbD 5 = (d.getLsbD 3 ^^ d.getLsbD 1 ^^ d.getLsbD 0) ∧
      v.getLsbD 4 = (d.getLsbD 3 ^^ d.getLsbD 2 ^^ d.getLsbD 0) ∧
      ∀ k : Fin 4, v.getLsbD k.val = d.getLsbD k.val

/-- R91. `ENC.T d` answers entry `d` of the encode table, whatever the bits 6:4 of the operand. -/
def Obligations.EncTReadsEncodeTable : Prop :=
  ∀ (x : BitVec 3) (d : DataValue) (s : State), decode (2#3 ++ x ++ d) = .encT x d ∧
    ∃ v : Codeword, Tables.ENC_ROM.entries[d.toNat]? = some v ∧
      exec (.encT x d) s = .next { s with
        rspIll := 0, rspVal := v, responses := s.responses ++ [⟨0, v⟩] }

/-- `41_encode.md` section 2 (R92, derived there): the two encoders give the same response for every one of the 128
operand values, the ignored bits included. -/
def Obligations.EncodersAgree : Prop :=
  ∀ (x y : BitVec 3) (d : DataValue) (s : State),
    (∃ t, exec (.encM x d) s = .next t) ∧ exec (.encM x d) s = exec (.encT y d) s

/-- R65. The response of an encode command is that of the same command with operand bits 6:4 zero (decision D9,
log 6). -/
def Obligations.EncodersIgnoreHighOperandBits : Prop :=
  ∀ (x : BitVec 3) (d : DataValue) (s : State),
    (∃ t, exec (.encM 0 d) s = .next t ∧ exec (.encM x d) s = .next t) ∧
    (∃ t, exec (.encT 0 d) s = .next t ∧ exec (.encT x d) s = .next t)

/-- R100. `SYN c` answers the 3-bit syndrome, bit `2-j` the inner product of row `j` of H with `c`, with the equations
written out (the row order is decision D6, log 5). -/
def Obligations.SynAnswersSyndrome : Prop :=
  ∀ (c : Codeword) (s : State), decode (3#3 ++ c) = .syn c ∧
    ∃ v : Syndrome, exec (.syn c) s = .next { s with
        rspIll := 0, rspVal := 0#4 ++ v, responses := s.responses ++ [⟨0, 0#4 ++ v⟩] } ∧
      (∀ j : Fin 3, ∃ row, Tables.H.entries[j.val]? = some row ∧ v.getLsbD (2 - j.val) = oddWeight (row &&& c)) ∧
      v.getLsbD 2 = (c.getLsbD 6 ^^ c.getLsbD 2 ^^ c.getLsbD 1 ^^ c.getLsbD 0) ∧
      v.getLsbD 1 = (c.getLsbD 5 ^^ c.getLsbD 3 ^^ c.getLsbD 1 ^^ c.getLsbD 0) ∧
      v.getLsbD 0 = (c.getLsbD 4 ^^ c.getLsbD 3 ^^ c.getLsbD 2 ^^ c.getLsbD 0)

/-- R101. `DEC.M c` answers the low four bits of `c ^ SMASK[syn(c)]`; a correction of a parity bit leaves `c[3:0]` as it
is, and a correction of a data bit inverts exactly one bit of it. -/
def Obligations.DecMAnswersCorrectedData : Prop :=
  ∀ (c : Codeword) (s : State), decode (4#3 ++ c) = .decM c ∧
    ∃ m : Codeword, Tables.SMASK.entries[(syn c).toNat]? = some m ∧
      exec (.decM c) s = .next { s with
        rspIll := 0, rspVal := 0#3 ++ (c ^^^ m).extractLsb' 0 4,
        responses := s.responses ++ [⟨0, 0#3 ++ (c ^^^ m).extractLsb' 0 4⟩] } ∧
      (syn c ∈ [0, 1, 2, 4] → (c ^^^ m).extractLsb' 0 4 = c.extractLsb' 0 4) ∧
      (syn c ∈ [3, 5, 6, 7] → weight ((c ^^^ m).extractLsb' 0 4 ^^^ c.extractLsb' 0 4) = 1)

/-- R104. `DEC.T c` answers entry `c` of the decode table. -/
def Obligations.DecTReadsDecodeTable : Prop :=
  ∀ (c : Codeword) (s : State), decode (5#3 ++ c) = .decT c ∧
    ∃ d : DataValue, Tables.DEC_ROM.entries[c.toNat]? = some d ∧
      exec (.decT c) s = .next { s with
        rspIll := 0, rspVal := 0#3 ++ d, responses := s.responses ++ [⟨0, 0#3 ++ d⟩] }

/-- R105. `DEC.P c` answers one nibble of unit `c / 2` of the packed table: the low nibble for an odd word, the high one
for an even word. -/
def Obligations.DecPReadsPackedNibble : Prop :=
  ∀ (c : Codeword) (s : State), decode (6#3 ++ c) = .decP c ∧
    ∃ (u : PackedUnit) (v : DataValue), Tables.PDEC_ROM.entries[c.toNat / 2]? = some u ∧
      v.toNat = (if c.toNat % 2 = 1 then u.toNat % 16 else u.toNat / 16) ∧
      exec (.decP c) s = .next { s with
        rspIll := 0, rspVal := 0#3 ++ v, responses := s.responses ++ [⟨0, 0#3 ++ v⟩] }

/-- `42_decode.md` section 5 (R106, derived there): the three decoders give the same response for every one of the 128
operands. -/
def Obligations.DecodersAgree : Prop :=
  ∀ (c : Codeword) (s : State),
    ∃ t, exec (.decM c) s = .next t ∧ exec (.decT c) s = .next t ∧ exec (.decP c) s = .next t

/-- R66. The reserved opcode, whatever the operand: `rsp_ill` = 1 and `rsp_val` = 0, nothing saved, the run faulted, and
the next command served as if this one had not been. It is taken as a next state (log 2). -/
def Obligations.ReservedOpcodeRaisesIllegalCommand : Prop :=
  ∀ (x : BitVec 7) (s : State), decode (7#3 ++ x) = .rsvd7 x ∧
    ∃ t : State, exec (.rsvd7 x) s = .next t ∧
      t = { s with rspIll := 1, rspVal := 0, responses := s.responses ++ [⟨1, 0⟩] } ∧
      t.good = false ∧ t.observation = s.observation ++ [.fault .illegalCommand] ∧
      ∀ cw : CommandWord, ∃ u v : State, serve cw t = .next u ∧ serve cw s = .next v ∧
        u.rspIll = v.rspIll ∧ u.rspVal = v.rspVal

-- == Rules about every command ==

/-- R67. Every command word completes from every state, and `rsp_ill` is 1 for the reserved opcode alone: no operand of the
seven operations raises anything. -/
def Obligations.IllegalExactlyOnReservedOpcode : Prop :=
  ∀ (cw : CommandWord) (s : State), ∃ t, exec (decode cw) s = .next t ∧
    (t.rspIll = 1 ↔ 0x380 ≤ cw.toNat) ∧ (t.rspIll = 0 ↔ cw.toNat < 0x380)

/-- `30_encoding.md` section 1 (R62): a result is zero-extended: `rsp_val` has no bit above the result width of its opcode. -/
def Obligations.ResultsAreZeroExtended : Prop :=
  ∀ (i : Instr) (s : State), ∃ t, exec i s = .next t ∧ t.rspVal.toNat < 2 ^ i.opcode.resultWidth

/-- The frame of every command (`10_state.md` section 1, `60_exceptions.md` R132): the input wires, the host's list and
the record of presented words stay; exactly one response is added, the one on the output wires. There is no memory and
no register to change. -/
def Obligations.CommandsChangeOnlyTheResponse : Prop :=
  ∀ (i : Instr) (s : State), ∃ t, exec i s = .next t ∧
    t.cmdOp = s.cmdOp ∧ t.cmdArg = s.cmdArg ∧ t.pending = s.pending ∧ t.presented = s.presented ∧
    t.responses = s.responses ++ [⟨t.rspIll, t.rspVal⟩]

/-- R61. Serving a command word drives exactly `respond(CW)`: the whole behaviour of the block is that one function. -/
def Obligations.ServeRefinesRespond : Prop :=
  ∀ (cw : CommandWord) (s : State), serve cw s = .next { s with
    cmdOp := cw.extractLsb' 7 3, cmdArg := cw.extractLsb' 0 7,
    rspIll := (respond cw).ill, rspVal := (respond cw).val,
    presented := s.presented ++ [cw], responses := s.responses ++ [respond cw] }

/-- `10_state.md` section 1 (R22): the response to a command word depends on that word alone, whatever came before and
whatever the state of the run is (log 1). -/
def Obligations.ResponseIndependentOfHistory : Prop :=
  ∀ (cw : CommandWord) (s s' : State), ∃ t t' : State, serve cw s = .next t ∧ serve cw s' = .next t' ∧
    t.rspIll = t'.rspIll ∧ t.rspVal = t'.rspVal

/-- `20_memory.md` section 7 (R52): any two commands commute: each gets the same response in either order. -/
def Obligations.CommandsCommute : Prop :=
  ∀ (a b : CommandWord) (s : State), ∃ sa sab sb sba : State,
    serve a s = .next sa ∧ serve b sa = .next sab ∧ serve b s = .next sb ∧ serve a sb = .next sba ∧
    sa.rspIll = sba.rspIll ∧ sa.rspVal = sba.rspVal ∧ sab.rspIll = sb.rspIll ∧ sab.rspVal = sb.rspVal

/-- The block built of XOR trees and gates (`92_eei_decisions.md` D20: R81, R93, R100, R102) answers every command word
as the block built of the matrices and the tables. -/
def Obligations.GateDesignEquivalent : Prop :=
  ∀ (cw : CommandWord) (s : State), ∃ t, serve cw s = .next t ∧
    (⟨t.rspIll, t.rspVal⟩ : Response) = respondGates cw

-- == What decoding guarantees ==

/-- R107, with every encoder and every decoder: a codeword with no bit or one bit flipped decodes to the data value. -/
def Obligations.SingleBitErrorsCorrected : Prop :=
  ∀ (x : BitVec 3) (d : DataValue) (m : Codeword) (s : State), weight m ≤ 1 →
    ∀ e ∈ [Instr.encM x d, .encT x d], ∃ t, exec e s = .next t ∧
      ∀ k ∈ [Instr.decM, .decT, .decP], ∃ u, exec (k (t.rspVal ^^^ m)) t = .next u ∧
        u.rspIll = 0 ∧ u.rspVal = 0#3 ++ d

/-- `42_decode.md` section 6 (R109, derived there): with any error pattern the response is defined, not a fault, and off
by `dec(e)`; so it is right exactly when at most one bit is wrong. -/
def Obligations.MultiBitErrorsDecodeWrong : Prop :=
  ∀ (d : DataValue) (e : Codeword) (s : State), ∃ t, exec (.decM (enc d ^^^ e)) s = .next t ∧
    t.rspIll = 0 ∧ t.rspVal = 0#3 ++ (d ^^^ dec e) ∧ (t.rspVal = 0#3 ++ d ↔ weight e ≤ 1)

/-- `10_state.md` section 3.5 (R34, derived there), for each of the three decoders (`42_decode.md` section 5): it answers
the one data value whose codeword differs from the received word in at most one bit. -/
def Obligations.DecodersAnswerNearestCodeword : Prop :=
  ∀ (c : Codeword) (s : State), ∀ k ∈ [Instr.decM, .decT, .decP], ∃ t, exec (k c) s = .next t ∧ t.rspIll = 0 ∧
    ∀ d : DataValue, t.rspVal = 0#3 ++ d ↔ weight (enc d ^^^ c) ≤ 1

/-- `42_decode.md` section 2 (R103, derived there): `SYN` answers 0 exactly on the 16 valid codewords. -/
def Obligations.ZeroSyndromeExactlyOnCodewords : Prop :=
  ∀ (c : Codeword) (s : State), ∃ t, exec (.syn c) s = .next t ∧ (t.rspVal = 0 ↔ ∃ d, enc d = c)

/-- `42_decode.md` section 2 (R103): of the 128 words, 16 have each of the eight syndromes. -/
def Obligations.EachSyndromeHasSixteenWords : Prop :=
  ∀ v : Syndrome, (List.range 128).countP (fun c => syn (BitVec.ofNat 7 c) == v) = 16

/-- `42_decode.md` section 6 (R108, derived there): `ENC.M` of the answer of `DEC.M` is the corrected codeword, which is
valid and the only valid one within one bit; and decoding it again gives the same answer. -/
def Obligations.EncodeOfDecodeIsCorrectedCodeword : Prop :=
  ∀ (c : Codeword) (x : BitVec 3) (s : State), ∃ t u v : State,
    exec (.decM c) s = .next t ∧ exec (.encM x (t.rspVal.extractLsb' 0 4)) t = .next u ∧
    exec (.decM u.rspVal) u = .next v ∧
    u.rspVal = c ^^^ correctionMask c ∧ v.rspVal = t.rspVal ∧
    ∀ d : DataValue, weight (enc d ^^^ c) ≤ 1 ↔ enc d = u.rspVal

/-- `41_encode.md` section 3 (R94, derived there): the code is systematic, linear and injective, has minimum distance 3,
and its sixteen codewords have weights 0, 3, 4 and 7, one, seven, seven and one of each. -/
def Obligations.CodeHasMinimumDistanceThree : Prop :=
  (∀ d : DataValue, (enc d).extractLsb' 0 4 = d ∧ syn (enc d) = 0) ∧ enc 0 = 0 ∧
  (∀ a b : DataValue, enc (a ^^^ b) = enc a ^^^ enc b ∧ (enc a = enc b → a = b) ∧
    (a ≠ b → 3 ≤ weight (enc a ^^^ enc b))) ∧
  [0, 3, 4, 7].map (fun n => (List.range 16).countP fun d => weight (enc (BitVec.ofNat 4 d)) == n) = [1, 7, 7, 1]

/-- `10_state.md` section 3.2 (R28, derived there): valid codewords have syndrome 0, `syn` is linear, and a single-bit
error has the syndrome of its own column, whatever the codeword. -/
def Obligations.SyndromeLaws : Prop :=
  (∀ a b : Codeword, syn (a ^^^ b) = syn a ^^^ syn b) ∧
  (∀ d : DataValue, syn (enc d) = 0 ∧
    ∀ b : Fin 7, syn (enc d ^^^ (1 <<< b.val)) = syn (1 <<< b.val)) ∧
  [6, 5, 4, 3, 2, 1, 0].map (fun b => syn (1 <<< b)) = [4, 2, 1, 3, 5, 6, 7]

/-- `40_parity.md` section 2 (R81, R83, derived there): the count and the XOR tree are one function, and it is linear. -/
def Obligations.ParityLaws : Prop :=
  par7 0 = 0 ∧ (∀ k : Fin 7, par7 (1 <<< k.val) = 1) ∧
  (∀ v : BitVec 7, par7 v = BitVec.ofBool (v.getLsbD 0 ^^ v.getLsbD 1 ^^ v.getLsbD 2 ^^ v.getLsbD 3 ^^ v.getLsbD 4 ^^
    v.getLsbD 5 ^^ v.getLsbD 6)) ∧
  (∀ m a b : BitVec 7, par7 (m &&& (a ^^^ b)) = par7 (m &&& a) ^^^ par7 (m &&& b))

-- == The constant tables ==

/-- `10_state.md` section 3.1 (R26, derived there): the rows of G are the codewords of the single-bit data values, and
their columns are the rows of GT. -/
def Obligations.GeneratorRowsAreCodewords : Prop :=
  [3, 2, 1, 0].map (fun k => enc (1 <<< k)) = [0x38, 0x54, 0x62, 0x71] ∧
  ∀ (i : Fin 7) (k : Fin 4), (enc (1 <<< k.val)).getLsbD (6 - i.val) = (readTable Tables.GT i).getLsbD k.val

/-- `10_state.md` section 3.3 (R30, derived there): the law that defines all eight entries of SMASK. -/
def Obligations.SyndromeTableLaw : Prop :=
  Tables.SMASK.entries[0]? = some 0 ∧
  ∀ b : Fin 7, Tables.SMASK.entries[(syn (1 <<< b.val)).toNat]? = some (1 <<< b.val)

/-- R32. Every entry of the encode table is what the matrix method computes. -/
def Obligations.EncodeTableLaw : Prop :=
  ∀ d : DataValue, Tables.ENC_ROM.entries[d.toNat]? = some (enc d)

/-- `10_state.md` section 3.5 (R34, derived there): every entry of the decode table is what the matrix decoder
computes. -/
def Obligations.DecodeTableLaw : Prop :=
  ∀ c : Codeword, Tables.DEC_ROM.entries[c.toNat]? = some (dec c)

/-- R36. Every unit of the packed table holds the results of words 2i and 2i+1, the even one in the high nibble. -/
def Obligations.PackedTableLaw : Prop :=
  ∀ i : Fin 64, ∃ (u : PackedUnit) (hi lo : DataValue), Tables.PDEC_ROM.entries[i.val]? = some u ∧
    Tables.DEC_ROM.entries[2 * i.val]? = some hi ∧ Tables.DEC_ROM.entries[2 * i.val + 1]? = some lo ∧
    u.extractLsb' 4 4 = hi ∧ u.extractLsb' 0 4 = lo

/-- `70_reset_and_hazards.md` section 2: regenerating every table from the four parity patterns of candidate F
(`92_eei_decisions.md` D5, log 4) gives the literals of this hardware. -/
def Obligations.TablesRegenerateFromPatterns : Prop :=
  Tables.GT = Candidate.f.patterns.gt ∧ Tables.H = hOf Tables.GT ∧ Tables.SMASK = smaskOf Tables.H ∧
  Tables.ENC_ROM = encRomOf Tables.GT ∧ Tables.DEC_ROM = decRomOf Tables.H Tables.SMASK ∧
  Tables.PDEC_ROM = pdecRomOf Tables.DEC_ROM

/-- `41_encode.md` section 3 (R95, derived there): the source's vectors and its single-bit property leave exactly the six
candidates of D5 (log 4). -/
def Obligations.SourceLeavesSixGenerators : Prop :=
  ∀ p : Patterns, p.meetsSource ↔ ∃ k : Candidate, k.patterns = p

/-- `41_encode.md` section 3 (R95): only the codewords of 0x0, 0x1, 0xE and 0xF are the same in all six candidates. -/
def Obligations.FourCodewordsSharedByCandidates : Prop :=
  ∀ d : DataValue, (∀ k : Candidate, k.patterns.enc d = enc d) ↔ d ∈ [0x0, 0x1, 0xE, 0xF]

/-- `10_state.md` section 3.2 (R27, log 5): the order of the rows of H changes no decode result. -/
def Obligations.DecodingIndependentOfRowOrder : Prop :=
  ∀ (rows : List Codeword) (h : rows.length = 3), rows.Perm Tables.H.entries →
    ∀ c : Codeword, decWith ⟨rows, h⟩ (smaskOf ⟨rows, h⟩) c = dec c

-- == Encoding ==

/-- Decoding the word of a well-formed command gives the command back, every operand bit of it (`30_encoding.md`
section 2); so does decoding it in the numbering of the opcode table. -/
def Obligations.DecodeOfEncode : Prop :=
  ∀ i : Instr, i.wellFormed = true → decode (encode i) = i ∧ decodeTableWord 16 (encode i).toNat = some i

/-- Each of the 1024 words has one meaning (`30_encoding.md` section 4): encoding what a word decodes to gives the word
back. A number that 10 wires cannot carry is no command word (log 9). -/
def Obligations.EncodeOfDecode : Prop :=
  ∀ w : Nat,
    (w < 1024 → decodeTableWord 16 w = some (decode (BitVec.ofNat 10 w)) ∧
      (encode (decode (BitVec.ofNat 10 w))).toNat = w ∧ (decode (BitVec.ofNat 10 w)).wellFormed = true) ∧
    (1024 ≤ w → decodeTableWord 16 w = none)

/-- `30_encoding.md` section 2 (R63): "a word CW selects the row where `CW & mask == match`". -/
def Obligations.WordsSelectRowsByMatchAndMask : Prop :=
  ∀ (cw : CommandWord) (op : Opcode), (decode cw).opcode = op ↔ cw &&& Opcode.mask = op.matchBits

/-- A word of each row, written out from its pattern (`95_test_vectors.md`, `30_encoding.md` section 2). -/
def Obligations.WordsOfTheSpecDecode : Prop :=
  decode 0b0000101011 = .par 0x2B ∧ decode 0b0011110001 = .encM 7 1 ∧ decode 0b0101001011 = .encT 4 0xB ∧
  decode 0b0110001011 = .syn 0x0B ∧ decode 0b1001111111 = .decM 0x7F ∧ decode 0b1010001011 = .decT 0x0B ∧
  decode 0b1100001011 = .decP 0x0B ∧ decode 0b1110101010 = .rsvd7 0x2A

/-- `30_encoding.md` section 6 (R70): the word of a line is `(opcode << 7) | operand`, and an operand above 0x7F is an assembly error. -/
def Obligations.AssembledWordIsOpcodeAndOperand : Prop :=
  ∀ (op : Opcode) (n : Nat),
    (n ≤ 0x7F → ∃ cw, assemble op n = some cw ∧ cw.toNat = (op.bits.toNat <<< 7) ||| n) ∧
    (0x7F < n → assemble op n = none)

/-- `30_encoding.md` section 6 (R70): `r<k>` is the `rsp_val` of line k, lines numbered from 1; the host evaluates `^`,
`&` and `|` on 7 bits; a line that has not responded has no value (log 8). -/
def Obligations.HostOperandsNameEarlierResponses : Prop :=
  ∀ (rs : List Response) (a b : HostExpr) (k : Nat),
    ((HostExpr.rsp k).eval rs = if 1 ≤ k ∧ k ≤ rs.length then (rs[k - 1]?).map Response.val else none) ∧
    (∀ x y, a.eval rs = some x → b.eval rs = some y →
      (HostExpr.xor a b).eval rs = some (x ^^^ y) ∧ (HostExpr.and a b).eval rs = some (x &&& y) ∧
      (HostExpr.or a b).eval rs = some (x ||| y))

-- == The step, the run, reset ==

/-- One step: the host's next line gives a command word, the word goes onto the port, and the block runs the command that
the word decodes to (`00_scope.md` section 5; the interface is the model's, log 14). -/
def Obligations.StepRunsTheDecodedCommand : Prop :=
  ∀ (s : State) (l : Line) (rest : List Line) (cw : CommandWord) (i : Instr),
    s.pending = l :: rest → l.word s.responses = some cw → decode cw = i → i.wellFormed = true →
    step s = exec i { s with
      cmdOp := cw.extractLsb' 7 3, cmdArg := cw.extractLsb' 0 7, pending := rest, presented := s.presented ++ [cw] }

/-- A step never answers the outcome `fault`, since opcode 7 is taken as a next state (log 2), and it answers no next
state only where the host has no command to present: its list is at an end, or the next line has no command word
(`70_reset_and_hazards.md` section 3; log 7, log 8). -/
def Obligations.StepStopsOnlyWithoutACommand : Prop :=
  ∀ s : State,
    (∃ t, step s = .next t) ∨
    (s.pending = [] ∧ step s = .refused .endOfRun) ∨
    (∃ l rest, s.pending = l :: rest ∧ l.word s.responses = none ∧ step s = .refused .operandHasNoValue)

/-- The outputs are the response to the word on the port, and the observation is the responses to the words presented:
every step keeps this (`10_state.md` section 1 and section 4). -/
def Obligations.StepKeepsWiresAndTrace : Prop :=
  ∀ s t : State, s.Inv → step s = .next t → t.Inv

/-- The invariant holds of the block as powered, with the port at the model's zero (log 3). -/
def Obligations.ResetMeetsWiresAndTrace : Prop :=
  State.reset.Inv

/-- As powered, nothing is pending and nothing has been answered, and the outputs are the response to the word on the
port (`10_state.md` section 4); the zero on the port is the model's (log 3). -/
def Obligations.ResetHoldsNothing : Prop :=
  State.reset.pending = [] ∧ State.reset.presented = [] ∧ State.reset.responses = [] ∧
  State.reset.good = true ∧
  (⟨State.reset.rspIll, State.reset.rspVal⟩ : Response) = respond (State.reset.cmdOp ++ State.reset.cmdArg)

/-- R141. The first command a host presents may be any command and gets its full response. -/
def Obligations.FirstCommandIsServed : Prop :=
  ∀ cw : CommandWord, ∃ t, step (State.reset.withFetchWord 16 cw.toNat) = .next t ∧
    (⟨t.rspIll, t.rspVal⟩ : Response) = respond cw ∧ t.responses = [respond cw] ∧ t.presented = [cw]

/-- A run of well-formed lines, operands computed from earlier responses included, completes from every state: one
response for each line, in order. The k-th word presented is the word of the k-th line, opcode and operand, computed over
the responses before it, and its response is the response to that word (`00_scope.md` section 5, `30_encoding.md` section
6, `70_reset_and_hazards.md` section 3). Then the run is at its end (log 7). -/
def Obligations.RunsCompleteWithTheirResponses : Prop :=
  ∀ s : State, programWellFormed s.responses.length s.pending = true →
    ∃ (t : State) (words : List CommandWord),
      Host.Core.run core s.pending.length s = .next t ∧ t.pending = [] ∧
      words.length = s.pending.length ∧ words.map opField = s.pending.map (fun l => l.op.bits) ∧
      (∀ (k : Nat) (l : Line), s.pending[k]? = some l →
        ∃ cw, words[k]? = some cw ∧ l.word (t.responses.take (s.responses.length + k)) = some cw) ∧
      t.presented = s.presented ++ words ∧ t.responses = s.responses ++ words.map respond ∧
      Host.Core.run core (s.pending.length + 1) s = .refused .endOfRun

/-- The step lemma of such a run: a well-formed list of lines stays well formed over the responses at each step, and while
a line is left the step completes (`00_scope.md` section 5, `30_encoding.md` section 6; what a line without a value does
is the model's, log 8). -/
def Obligations.StepKeepsProgramWellFormed : Prop :=
  ∀ s : State, programWellFormed s.responses.length s.pending = true →
    (∀ t : State, step s = .next t → programWellFormed t.responses.length t.pending = true) ∧
    (s.pending ≠ [] → ∃ t : State, step s = .next t)

/-- The block as powered meets the invariant of `StepKeepsProgramWellFormed`, and so does the reset state with any
well-formed program to present (log 9). -/
def Obligations.ResetProgramWellFormed : Prop :=
  programWellFormed State.reset.responses.length State.reset.pending = true ∧
  ∀ program : List Line, programWellFormed 0 program = true →
    programWellFormed (load program State.reset).responses.length (load program State.reset).pending = true

/-- `60_exceptions.md` section 1 (R122): the fault is distinct from a value and stays in the trace, so that a later good
response cannot hide it. After a step the run is good exactly when it was good before and the word served is not of the
reserved opcode. That the step goes on is the model's reading (log 2). -/
def Obligations.FaultStaysInTheTrace : Prop :=
  ∀ s t : State, step s = .next t →
    (t.good = true ↔ s.good = true ∧ t.cmdOp ≠ 7) ∧
    t.observation = s.observation ++ [if t.cmdOp = 7 then .fault .illegalCommand else .value t.rspVal]

/-- `60_exceptions.md` section 5 (R131): on a platform of any number of instances, each instance gives its own commands
the responses it would give alone, in every interleaving. A platform as a list of states, each served directly and past
its own list of pending lines, is the model's reading (log 11). -/
def Obligations.InstancesShareNothing : Prop :=
  ∀ (p : Platform) (schedule : List (Nat × CommandWord)) (k : Nat) (s : State), p[k]? = some s →
    (p.serveAll schedule).length = p.length ∧
    ∃ t, (p.serveAll schedule)[k]? = some t ∧
      t.responses = s.responses ++ (wordsFor k schedule).map respond ∧
      t.presented = s.presented ++ wordsFor k schedule ∧ t.pending = s.pending

-- == Two variants that are false (95_test_vectors.md V11) ==

/-- False: it is 6 (`95_test_vectors.md` V9, V11). -/
def Obligations.DoubleErrorDecodesRight : Prop :=
  dec (enc 5 ^^^ 0x03) = 5

/-- False, at the word 0x06 (`95_test_vectors.md` V7, V11): with the nibbles swapped the packed decoder does not agree
with the table decoder. -/
def Obligations.SwappedNibblesAgree : Prop :=
  ∀ c : Codeword, decRom c =
    (if c.getLsbD 0 then (readTableAt Tables.PDEC_ROM (unitIndex c)).extractLsb' 4 4
     else (readTableAt Tables.PDEC_ROM (unitIndex c)).extractLsb' 0 4)
end

