-- ==== Sys2Proof/Laws/State.lean ====
section
/-! SUPPORT. One lemma per field per update of State: what `drive`, `present` and `load` write and what they keep. -/

namespace Sys2Proof.Machine

@[simp] theorem drive_cmdOp (r : Response) (s : State) : (drive r s).cmdOp = s.cmdOp := rfl
@[simp] theorem drive_cmdArg (r : Response) (s : State) : (drive r s).cmdArg = s.cmdArg := rfl
@[simp] theorem drive_rspIll (r : Response) (s : State) : (drive r s).rspIll = r.ill := rfl
@[simp] theorem drive_rspVal (r : Response) (s : State) : (drive r s).rspVal = r.val := rfl
@[simp] theorem drive_pending (r : Response) (s : State) : (drive r s).pending = s.pending := rfl
@[simp] theorem drive_presented (r : Response) (s : State) : (drive r s).presented = s.presented := rfl
@[simp] theorem drive_responses (r : Response) (s : State) : (drive r s).responses = s.responses ++ [r] := rfl

@[simp] theorem present_cmdOp (cw : CommandWord) (s : State) : (present cw s).cmdOp = opField cw := rfl
@[simp] theorem present_cmdArg (cw : CommandWord) (s : State) : (present cw s).cmdArg = argField cw := rfl
@[simp] theorem present_rspIll (cw : CommandWord) (s : State) : (present cw s).rspIll = s.rspIll := rfl
@[simp] theorem present_rspVal (cw : CommandWord) (s : State) : (present cw s).rspVal = s.rspVal := rfl
@[simp] theorem present_pending (cw : CommandWord) (s : State) : (present cw s).pending = s.pending := rfl
@[simp] theorem present_presented (cw : CommandWord) (s : State) :
    (present cw s).presented = s.presented ++ [cw] := rfl
@[simp] theorem present_responses (cw : CommandWord) (s : State) : (present cw s).responses = s.responses := rfl

@[simp] theorem load_cmdOp (p : List Line) (s : State) : (load p s).cmdOp = s.cmdOp := rfl
@[simp] theorem load_cmdArg (p : List Line) (s : State) : (load p s).cmdArg = s.cmdArg := rfl
@[simp] theorem load_rspIll (p : List Line) (s : State) : (load p s).rspIll = s.rspIll := rfl
@[simp] theorem load_rspVal (p : List Line) (s : State) : (load p s).rspVal = s.rspVal := rfl
@[simp] theorem load_pending (p : List Line) (s : State) : (load p s).pending = p ++ s.pending := rfl
@[simp] theorem load_presented (p : List Line) (s : State) : (load p s).presented = s.presented := rfl
@[simp] theorem load_responses (p : List Line) (s : State) : (load p s).responses = s.responses := rfl

/-- The port carries the word that was put on it (R60). -/
theorem port_of_present (cw : CommandWord) (s : State) :
    ((present cw s).cmdOp ++ (present cw s).cmdArg : CommandWord) = cw := by
  ext i hi
  simp only [present_cmdOp, present_cmdArg, opField, argField, BitVec.getElem_append, BitVec.getElem_extractLsb']
  split
  · simp [BitVec.getLsbD_eq_getElem hi]
  · rw [show 7 + (i - 7) = i by omega, BitVec.getLsbD_eq_getElem hi]

end Sys2Proof.Machine
end

