-- ==== Sys2Proof/Laws/Ops.lean ====
section
/-! SUPPORT. What each shared operation can do, said once: the table reads, the two ends of a meaning, the fetch, and
the values of a host's operand. -/

namespace Sys2Proof.Machine

/-- A table read is the entry at that place of the list. -/
theorem readTable_eq_getElem {α : Type} {n : Nat} (t : Table α n) (i : Fin n) :
    t.entries[i.val]? = some (readTable t i) := by
  have h : i.val < t.entries.length := by rw [t.size_eq]; exact i.isLt
  simp [readTable, List.getElem?_eq_getElem h]

/-- The same for an index that is a bit vector: every index is in range (R40). -/
theorem readTableAt_eq_getElem {α : Type} {w : Nat} (t : Table α (2 ^ w)) (i : BitVec w) :
    t.entries[i.toNat]? = some (readTableAt t i) :=
  readTable_eq_getElem t i.toFin

/-- Everything `answer` does: it answers a next state, with `rsp_ill` 0, the value driven and one more response. -/
theorem answer_next (v : BitVec 7) (s : State) : answer v s = .next (drive ⟨0, v⟩ s) := rfl

/-- Everything taking the exception does: it answers a next state, with `rsp_ill` 1 and `rsp_val` 0. -/
theorem raiseIllegalCommand_next (s : State) : raiseIllegalCommand s = .next (drive ⟨1, 0⟩ s) := rfl

/-- If a fetch succeeds, the host had a line with a command word, and only the port, the list of lines and the record of
presented words changed. -/
theorem fetch_ok {s t : State} {cw : CommandWord} (h : fetch s = .ok (cw, t)) :
    ∃ l rest, s.pending = l :: rest ∧ l.word s.responses = some cw ∧
      t = present cw { s with pending := rest } := by
  unfold fetch at h
  split at h
  · simp at h
  next l rest hp =>
    split at h
    · simp at h
    next w hw =>
      simp only [Except.ok.injEq, Prod.mk.injEq] at h
      obtain ⟨rfl, rfl⟩ := h
      exact ⟨l, rest, hp, hw, rfl⟩

/-- A fetch fails exactly at the end of the host's list, or on a line with no command word. -/
theorem fetch_error {s : State} {r : Refusal} (h : fetch s = .error r) :
    (s.pending = [] ∧ r = .endOfRun) ∨
      ∃ l rest, s.pending = l :: rest ∧ l.word s.responses = none ∧ r = .operandHasNoValue := by
  unfold fetch at h
  split at h
  next hp => simp only [Except.error.injEq] at h; exact .inl ⟨hp, h.symm⟩
  next l rest hp =>
    split at h
    next hw => simp only [Except.error.injEq] at h; exact .inr ⟨l, rest, hp, hw, h.symm⟩
    · simp at h

/-- A well-formed operand has a value once the lines before it have responded (R70). -/
theorem eval_of_wellFormed (rs : List Response) (e : HostExpr) (h : e.wellFormed rs.length = true) :
    ∃ v, e.eval rs = some v := by
  induction e with
  | lit n => simp_all [HostExpr.wellFormed, HostExpr.eval]
  | rsp k =>
    cases k with
    | zero => simp [HostExpr.wellFormed] at h
    | succ k =>
      have hk : k < rs.length := by simp [HostExpr.wellFormed] at h; omega
      exact ⟨rs[k].val, by simp [HostExpr.eval, List.getElem?_eq_getElem hk]⟩
  | xor a b iha ihb | and a b iha ihb | or a b iha ihb =>
    simp only [HostExpr.wellFormed, Bool.and_eq_true] at h
    obtain ⟨x, hx⟩ := iha h.1
    obtain ⟨y, hy⟩ := ihb h.2
    simp [HostExpr.eval, hx, hy]

/-- A line made from a command word presents that word, whatever has been answered before. -/
theorem lineOfWord_word (rs : List Response) (cw : CommandWord) : (lineOfWord cw).word rs = some cw := by
  have hop : ∀ b : BitVec 3, (Opcode.ofBits b).bits = b := by decide
  have hle : (argField cw).toNat ≤ 0x7F := by have := (argField cw).isLt; omega
  have hport := port_of_present cw State.reset
  simp only [present_cmdOp, present_cmdArg] at hport
  simp only [lineOfWord, Line.word, HostExpr.eval, if_pos hle, Option.map_some, commandWord, hop,
    BitVec.ofNat_toNat, BitVec.setWidth_eq, Option.some.injEq]
  exact hport

/-- `withFetchWord` makes the very next step run exactly the command that the word decodes to. -/
theorem step_withFetchWord (s : State) (nbits w : Nat) :
    step (s.withFetchWord nbits w) = exec (decode (BitVec.ofNat 10 w)) (present (BitVec.ofNat 10 w) s) := by
  simp [step, fetch, State.withFetchWord, load, lineOfWord_word]

/-- If a step answers a next state, the host had a line with a command word, and the next state is the answer of the
command that the word decodes to, with the word on the port and the rest of the lines pending. -/
theorem step_next {s t : State} (h : step s = .next t) :
    ∃ l rest cw, s.pending = l :: rest ∧ l.word s.responses = some cw ∧
      exec (decode cw) (present cw { s with pending := rest }) = .next t := by
  unfold step at h
  cases hf : fetch s with
  | error r => simp [hf] at h
  | ok v =>
    obtain ⟨cw, u⟩ := v
    obtain ⟨l, rest, hp, hw, rfl⟩ := fetch_ok hf
    exact ⟨l, rest, cw, hp, hw, by simpa [hf] using h⟩

end Sys2Proof.Machine
end

