-- ==== Sys2Proof/Laws/PerInstr.lean ====
section
/-! SUPPORT. Statements about every command as syntax, one lemma per constructor. Family `MatchesRow`: the word of a
command selects its own row of the opcode map (`30_encoding.md` R63). -/

namespace Sys2Proof.Laws.MatchesRow

/-- The command word of `i`, masked, is the match value of its row. -/
def Statement (i : Instr) : Prop := encode i &&& Opcode.mask = i.opcode.matchBits

/-- The masked word keeps the opcode field and nothing of the operand. -/
theorem mask_commandWord (op : Opcode) (arg : BitVec 7) : commandWord op arg &&& Opcode.mask = op.matchBits := by
  revert arg
  cases op <;> decide

theorem par (v : BitVec 7) : Statement (.par v) := mask_commandWord _ _
theorem encM (x : BitVec 3) (d : DataValue) : Statement (.encM x d) := mask_commandWord _ _
theorem encT (x : BitVec 3) (d : DataValue) : Statement (.encT x d) := mask_commandWord _ _
theorem syn (c : Codeword) : Statement (.syn c) := mask_commandWord _ _
theorem decM (c : Codeword) : Statement (.decM c) := mask_commandWord _ _
theorem decT (c : Codeword) : Statement (.decT c) := mask_commandWord _ _
theorem decP (c : Codeword) : Statement (.decP c) := mask_commandWord _ _
theorem rsvd7 (x : BitVec 7) : Statement (.rsvd7 x) := mask_commandWord _ _

end Sys2Proof.Laws.MatchesRow
end

