-- ==== Sys2Proof/Tests/Slice0.lean ====
section
/-! SUPPORT. The model's own tests. Expected values are the spec's: `95_test_vectors.md` (V1 to V10) and the worked
examples of the rules, named at each test. The last part shows that no statement's hypotheses are empty. -/

namespace Sys2Proof.Tests

open Sys2Proof.Machine

/-- The next state of an outcome, if it is one. -/
def nextOf : Host.Outcome State Fault Refusal → Option State
  | .next s => some s
  | .fault _ => none
  | .refused _ => none

/-- The response word that a command answers from a state. -/
def respWord (i : Instr) (s : State) : Option ResponseWord :=
  (nextOf (exec i s)).map fun t => Response.word ⟨t.rspIll, t.rspVal⟩

/-- A state after two responses, about to take the lines given. -/
def afterTwo (lines : List Line) : State :=
  { State.reset with
    cmdOp := 7, cmdArg := 0x2A, rspIll := 1, rspVal := 0, pending := lines, presented := [0x08B, 0x3AA],
    responses := [⟨0, 0x2B⟩, ⟨1, 0⟩] }

-- == Widths (R7, R8) ==

theorem test_config_widths :
    2 ^ Config.dataBits = Config.encEntries ∧ 2 ^ Config.codeBits = Config.decEntries ∧
    2 ^ Config.parityBits = Config.synValues ∧ Config.decEntries = 2 * Config.pdecEntries ∧
    Config.dataBits + Config.parityBits = Config.codeBits ∧ Config.opBits + Config.argBits = 10 ∧
    Config.pdecUnit = 2 * Config.dataBits ∧ Config.parWidth = Config.codeBits := by decide

-- == WellFormed: an ill-formed term for each check ==

/-- "An operand above 0x7F is an assembly error" (R70). -/
theorem test_wellFormed_refuses_wide_literal :
    (HostExpr.lit 0x80).wellFormed 3 = false ∧ (HostExpr.lit 0x7F).wellFormed 3 = true := by decide
/-- Lines are numbered from 1 (R70), and an operand is computed from earlier responses (R13). -/
theorem test_wellFormed_refuses_line_zero_and_later_lines :
    (HostExpr.rsp 0).wellFormed 3 = false ∧ (HostExpr.rsp 4).wellFormed 3 = false ∧
    (HostExpr.rsp 1).wellFormed 3 = true ∧ (HostExpr.rsp 3).wellFormed 3 = true := by decide
theorem test_wellFormed_looks_inside_expressions :
    (HostExpr.xor (.rsp 1) (.lit 0x80)).wellFormed 1 = false ∧ (HostExpr.and (.rsp 2) (.lit 1)).wellFormed 1 = false ∧
    (HostExpr.or (.lit 0x80) (.lit 1)).wellFormed 1 = false := by decide
theorem test_program_refuses_reference_to_its_own_line :
    programWellFormed 0 [⟨.encM, .lit 0x5⟩, ⟨.syn, .rsp 2⟩] = false ∧
    programWellFormed 0 [⟨.encM, .lit 0x5⟩, ⟨.syn, .rsp 1⟩] = true := by decide
/-- Operand bits that the source leaves undefined, and the reserved opcode (U1, U7). -/
theorem test_inSourceDomain_refuses :
    (Instr.encM 7 1).inSourceDomain = false ∧ (Instr.encT 4 0xB).inSourceDomain = false ∧
    (Instr.rsvd7 0).inSourceDomain = false ∧ (Instr.encM 0 1).inSourceDomain = true ∧
    (Instr.decM 0x26).inSourceDomain = true := by decide

-- == Decoding: words written bit by bit from the patterns of R63 ==

theorem test_decode_par : decode 0b0000001011 = .par 0b0001011 := by decide
theorem test_decode_encM : decode 0b0011110001 = .encM 0b111 0b0001 := by decide
theorem test_decode_encT : decode 0b0101001011 = .encT 0b100 0b1011 := by decide
theorem test_decode_syn : decode 0b0110001011 = .syn 0b0001011 := by decide
theorem test_decode_decM : decode 0b1001111111 = .decM 0b1111111 := by decide
theorem test_decode_decT : decode 0b1010001011 = .decT 0b0001011 := by decide
theorem test_decode_decP : decode 0b1100000110 = .decP 0b0000110 := by decide
theorem test_decode_rsvd7 : decode 0b1110101010 = .rsvd7 0b0101010 := by decide
/-- A word that 10 wires cannot carry is rejected by name (R60). -/
theorem test_decode_rejects_an_eleventh_bit :
    decodeBits 0x400 = .error .noSuchWire ∧ decodeTableWord 16 0x400 = none ∧
    decodeTableWord 16 0x3FF = some (.rsvd7 0x7F) := by decide
theorem test_encode_words :
    [Instr.par 0x2B, .encM 7 1, .encT 4 0xB, .syn 0x0B, .decM 0x7F, .decT 0x0B, .decP 0x07, .rsvd7 0x2A].map encode =
      [0x02B, 0x0F1, 0x14B, 0x18B, 0x27F, 0x28B, 0x307, 0x3AA] := by decide

-- == Assembler (R70): lines of V10 ==

/-- `ENC.M 0x71 ; ...` is 0x0F1 (P5 line 5). -/
theorem test_assemble_hex :
    assembleText ['E', 'N', 'C', '.', 'M', ' ', '0', 'x', '7', '1', ' ', ';', ' ', 'b'] = some 0x0F1 := by decide
/-- `PAR 0101011b` is `PAR 0x2B`, CW 0x02B (V2); `RSVD7 42` is `RSVD7 0x2A`, CW 0x3AA (V8). -/
theorem test_assemble_binary_and_decimal :
    assembleText ['P', 'A', 'R', ' ', '0', '1', '0', '1', '0', '1', '1', 'b'] = some 0x02B ∧
    assembleText ['R', 'S', 'V', 'D', '7', ' ', '4', '2'] = some 0x3AA := by decide
theorem test_assemble_errors :
    assembleText ['P', 'A', 'R', ' ', '0', 'x', '8', '0'] = none ∧ assembleText ['p', 'a', 'r', ' ', '1'] = none ∧
    assembleText ['P', 'A', 'R'] = none ∧ assembleText ['P', 'A', 'R', ' ', '0', 'x'] = none := by decide

-- == The commands: RW of V1 to V9 ==

theorem test_par_counts_all_seven_positions :
    [0x00, 0x40, 0x0B, 0x2B, 0x7E, 0x7F].map (fun v => respWord (.par v) State.reset) =
      [some 0x00, some 0x01, some 0x01, some 0x00, some 0x00, some 0x01] := by decide
/-- E1 to E3 and the ignored bits of V3. -/
theorem test_encM_vectors :
    [respWord (.encM 0 0x0) State.reset, respWord (.encM 0 0x1) State.reset, respWord (.encM 0 0xF) State.reset, respWord (.encM 7 0x1) State.reset,
      respWord (.encM 0 0xB) State.reset] = [some 0x00, some 0x71, some 0x7F, some 0x71, some 0x2B] := by decide
theorem test_encT_vectors :
    [respWord (.encT 0 0x1) State.reset, respWord (.encT 4 0xB) State.reset, respWord (.encT 0 0x6) State.reset, respWord (.encT 0 0xE) State.reset] =
      [some 0x71, some 0x2B, some 0x36, some 0x0E] := by decide
/-- The columns of H (R100). -/
theorem test_syn_columns :
    [0x40, 0x20, 0x10, 0x08, 0x04, 0x02, 0x01, 0x7F].map (fun c => respWord (.syn c) State.reset) =
      [some 4, some 2, some 1, some 3, some 5, some 6, some 7, some 0] := by decide
/-- V6 and the double error of V9. -/
theorem test_decM_vectors :
    [0x0B, 0x31, 0x79, 0x70, 0x3F, 0x26].map (fun c => respWord (.decM c) State.reset) =
      [some 0x0B, some 0x01, some 0x01, some 0x01, some 0x0F, some 0x06] := by decide
theorem test_decT_vectors :
    [0x06, 0x07, 0x30, 0x31, 0x7F].map (fun c => respWord (.decT c) State.reset) =
      [some 0x0E, some 0x07, some 0x08, some 0x01, some 0x0F] := by decide
/-- V7: pairs whose two nibbles differ. -/
theorem test_decP_nibbles :
    [0x06, 0x07, 0x30, 0x31, 0x3E, 0x3F].map (fun c => respWord (.decP c) State.reset) =
      [some 0x0E, some 0x07, some 0x08, some 0x01, some 0x06, some 0x0F] := by decide
/-- V8. -/
theorem test_rsvd7_response : respWord (.rsvd7 0x2A) State.reset = some 0x80 := by decide

-- == The step ==

/-- `withFetchWord` makes the first step after reset run the word: `ENC.M 0x1` (E2). -/
theorem test_step_runs_the_word :
    step (State.reset.withFetchWord 16 0x081) =
      .next { State.reset with
        cmdOp := 1, cmdArg := 0x01, rspVal := 0x71, presented := [0x081], responses := [⟨0, 0x71⟩] } := by rfl
/-- P2 line 3: `DEC.M r1 ^ 0x20` presents 0x20B and answers 0x0B; it is served after a fault as before one (R126). -/
theorem test_step_computes_a_host_operand :
    (nextOf (step (afterTwo [⟨.decM, .xor (.rsp 1) (.lit 0x20)⟩]))).map (fun t => (t.presented, t.observation, t.good)) =
      some ([0x08B, 0x3AA, 0x20B], [.value 0x2B, .fault .illegalCommand, .value 0x0B], false) := by decide
theorem test_step_ends_with_the_hosts_list : step State.reset = .refused .endOfRun := by rfl
theorem test_step_refuses_a_line_without_a_word :
    step (afterTwo [⟨.par, .rsp 3⟩]) = .refused .operandHasNoValue ∧
    step (afterTwo [⟨.par, .lit 0x80⟩]) = .refused .operandHasNoValue := ⟨by rfl, by rfl⟩
/-- Two commands on two instances: each keeps its own responses (R131). -/
theorem test_platform_instances :
    (Platform.serveAll [State.reset, State.reset] [(0, 0x081), (1, 0x20B), (0, 0x3AA)]).map State.observation =
      [[.value 0x71, .fault .illegalCommand], [.value 0x0B]] := by decide

-- == The hypotheses of the statements are not empty ==

/-- DecMAnswersCorrectedData: a word of each of its two clauses, at the least and greatest syndrome of each. -/
theorem witness_corrected_bit_kinds :
    syn 0x00 = 0 ∧ syn 0x31 = 4 ∧ syn 0x79 = 3 ∧ syn 0x70 = 7 ∧
    (0 : Syndrome) ∈ ([0, 1, 2, 4] : List Syndrome) ∧ (4 : Syndrome) ∈ ([0, 1, 2, 4] : List Syndrome) ∧
    (3 : Syndrome) ∈ ([3, 5, 6, 7] : List Syndrome) ∧ (7 : Syndrome) ∈ ([3, 5, 6, 7] : List Syndrome) := by decide
/-- SingleBitErrorsCorrected: no bit and one bit flipped; both encoders, all three decoders are in its lists. -/
theorem witness_single_bit_masks :
    weight (0 : Codeword) ≤ 1 ∧ weight (0x40 : Codeword) ≤ 1 ∧ weight (0x01 : Codeword) ≤ 1 ∧
    Instr.encT 0 9 ∈ [Instr.encM 0 9, .encT 0 9] := by decide
/-- CodeHasMinimumDistanceThree: two data values that differ, and two equal codewords. -/
theorem witness_two_data_values : (0 : DataValue) ≠ 1 ∧ enc 5 = enc 5 := by decide
/-- DecodingIndependentOfRowOrder: another order of the rows of H. -/
theorem witness_row_order :
    ([0x2B, 0x47, 0x1D] : List Codeword).length = 3 ∧ ([0x2B, 0x47, 0x1D] : List Codeword).Perm Tables.H.entries := by decide
/-- DecodeOfEncode: a well-formed command with bits that it ignores. -/
theorem witness_wellFormed_command : (Instr.encM 7 1).wellFormed = true := by decide
/-- EncodeOfDecode: the last word that has a meaning and the first number that is none. -/
theorem witness_word_bounds : 0x3FF < 1024 ∧ 1024 ≤ 0x400 := by decide
/-- AssembledWordIsOpcodeAndOperand: the two sides of the bound. -/
theorem witness_assembler_bound : 0x7F ≤ 0x7F ∧ 0x7F < 0x80 := by decide
/-- HostOperandsNameEarlierResponses: two operands that have values, and the ends of the range of `r<k>`. -/
theorem witness_host_operands :
    (HostExpr.rsp 1).eval [⟨0, 0x2B⟩] = some 0x2B ∧ (HostExpr.lit 0x20).eval [⟨0, 0x2B⟩] = some 0x20 ∧
    (HostExpr.rsp 0).eval [⟨0, 0x2B⟩] = none ∧ (HostExpr.rsp 2).eval [⟨0, 0x2B⟩] = none := by decide
/-- StepRunsTheDecodedCommand. -/
theorem witness_step_runs :
    (afterTwo [⟨.decM, .rsp 1⟩]).pending = [⟨.decM, .rsp 1⟩] ∧
    (⟨.decM, .rsp 1⟩ : Line).word (afterTwo []).responses = some 0x22B ∧ decode 0x22B = .decM 0x2B ∧
    (Instr.decM 0x2B).wellFormed = true := by decide
/-- StepStopsOnlyWithoutACommand: each of its three cases. -/
theorem witness_step_outcomes :
    (nextOf (step (afterTwo [⟨.par, .lit 0⟩]))).isSome = true ∧ (afterTwo []).pending = [] ∧
    (⟨.par, .rsp 3⟩ : Line).word (afterTwo [⟨.par, .rsp 3⟩]).responses = none := by decide
/-- StepKeepsWiresAndTrace and FaultStaysInTheTrace: a state that meets the invariant, not the reset state, and its
step. -/
theorem witness_invariant_and_step :
    (afterTwo [⟨.par, .lit 0⟩]).Inv ∧ (nextOf (step (afterTwo [⟨.par, .lit 0⟩]))).isSome = true :=
  ⟨⟨by decide, by decide⟩, by decide⟩
/-- RunsCompleteWithTheirResponses and StepKeepsProgramWellFormed: a program in a state that has answered two commands. -/
theorem witness_wellFormed_run :
    programWellFormed (afterTwo [⟨.syn, .rsp 1⟩, ⟨.decP, .xor (.rsp 3) (.lit 0x7F)⟩]).responses.length
      (afterTwo [⟨.syn, .rsp 1⟩, ⟨.decP, .xor (.rsp 3) (.lit 0x7F)⟩]).pending = true := by decide
/-- RunsCompleteWithTheirResponses: a line of that program, and its word over the responses before it (the 0x2B of the
first response is a codeword, so `SYN r1` is `SYN 0x2B`). -/
theorem witness_line_of_run :
    (afterTwo [⟨.syn, .rsp 1⟩]).pending[0]? = some ⟨.syn, .rsp 1⟩ ∧
    (⟨.syn, .rsp 1⟩ : Line).word ((afterTwo []).responses.take 2) = some 0x1AB := by decide
/-- StepKeepsProgramWellFormed: a step from such a state, with a line left. -/
theorem witness_step_of_wellFormed_run :
    (afterTwo [⟨.syn, .rsp 1⟩]).pending ≠ [] ∧ programWellFormed 2 (afterTwo [⟨.syn, .rsp 1⟩]).pending = true ∧
    (nextOf (step (afterTwo [⟨.syn, .rsp 1⟩]))).isSome = true := by decide
/-- ResetProgramWellFormed: a program that uses a response of its own (P1, lines 1 and 3). -/
theorem witness_wellFormed_program :
    programWellFormed 0 [⟨.encM, .lit 0x5⟩, ⟨.syn, .rsp 1⟩] = true := by decide
/-- DecodersAnswerNearestCodeword: each decoder is in its list, and a word has a codeword within one bit. -/
theorem witness_decoders :
    weight (enc 0xB ^^^ 0x0B) ≤ 1 ∧ Instr.decM 0x0B ∈ [Instr.decM, .decT, .decP].map (fun k => k 0x0B) ∧
    Instr.decP 0x0B ∈ [Instr.decM, .decT, .decP].map (fun k => k 0x0B) := by decide
/-- InstancesShareNothing: an instance of a platform of two. -/
theorem witness_instance : ([State.reset, afterTwo []] : Platform)[1]? = some (afterTwo []) := by decide
/-- FourCodewordsSharedByCandidates and SourceLeavesSixGenerators: a candidate other than the one taken. -/
theorem witness_other_candidate : Candidate.a.patterns.enc 2 ≠ enc 2 ∧ Candidate.a.patterns.enc 0xE = enc 0xE := by decide

end Sys2Proof.Tests
end

section
/-! The constant tables (`10_state.md` section 3): a table regenerated by its rule holds, at each index, what the rule
says, whatever matrix or table it is regenerated from; the printed literals of `ENC_ROM` and `PDEC_ROM` are regenerated
tables. -/

namespace Sys2Proof.Machine

/-- The encode table of any transposed generator matrix holds that matrix's codewords (R32). -/
theorem encRomOf_getElem? (gt : Table DataValue 7) (d : DataValue) :
    (encRomOf gt).entries[d.toNat]? = some (encWith gt d) := by
  have hd : d.toNat < 16 := d.isLt
  simp [encRomOf, hd]

/-- The printed encode table is the one of this hardware's generator matrix (R32). -/
theorem ENC_ROM_eq_encRomOf : Tables.ENC_ROM = encRomOf Tables.GT := by decide

/-- Entry `i` of a table, named by a number within its index width. -/
theorem getElem?_eq_readTableAt {α : Type} {w : Nat} (t : Table α (2 ^ w)) {i : Nat} (hi : i < 2 ^ w) :
    t.entries[i]? = some (readTableAt t (BitVec.ofNat w i)) := by
  simpa [Nat.mod_eq_of_lt hi] using readTableAt_eq_getElem t (BitVec.ofNat w i)

/-- The packing of any decode table: unit `i` is entry `2i` followed by entry `2i+1` (R36). -/
theorem pdecRomOf_getElem? (decTable : Table DataValue (2 ^ 7)) (i : Fin 64) :
    (pdecRomOf decTable).entries[i.val]? =
      some (readTableAt decTable (BitVec.ofNat 7 (2 * i.val)) ++
        readTableAt decTable (BitVec.ofNat 7 (2 * i.val + 1))) := by
  simp [pdecRomOf]

/-- The printed packed table is the packing of the printed decode table (R36). -/
theorem PDEC_ROM_eq_pdecRomOf : Tables.PDEC_ROM = pdecRomOf Tables.DEC_ROM := by decide

/-- Settles O31: the printed table is the one regenerated from the matrix, whose entries are the codewords. -/
theorem encodeTableLaw : Obligations.EncodeTableLaw := by
  intro d
  rw [ENC_ROM_eq_encRomOf]
  exact encRomOf_getElem? Tables.GT d

/-- Settles O33: the printed table is the packing of the decode table, and a unit's nibbles are the two entries it
appends. -/
theorem packedTableLaw : Obligations.PackedTableLaw := by
  intro i
  have heven : 2 * i.val < 2 ^ 7 := by omega
  have hodd : 2 * i.val + 1 < 2 ^ 7 := by omega
  rw [PDEC_ROM_eq_pdecRomOf]
  exact ⟨_, _, _, pdecRomOf_getElem? Tables.DEC_ROM i,
    getElem?_eq_readTableAt Tables.DEC_ROM heven, getElem?_eq_readTableAt Tables.DEC_ROM hodd,
    BitVec.extractLsb'_append_eq_left, BitVec.extractLsb'_append_eq_right⟩

end Sys2Proof.Machine
end

section
/-! Command words (`30_encoding.md`): every word is an opcode and an operand, the command it decodes to drives
`respond` of it whatever the state (R61), and `rsp_ill` marks the words of the reserved opcode and no other (R67). -/

namespace Sys2Proof

/-- The wires 9:7 of a word carry its opcode (R60). -/
@[simp] theorem opBits_commandWord (op : Opcode) (arg : BitVec 7) :
    (commandWord op arg).extractLsb' 7 3 = op.bits :=
  BitVec.extractLsb'_append_eq_left

/-- The wires 6:0 of a word carry its operand (R60). -/
@[simp] theorem argBits_commandWord (op : Opcode) (arg : BitVec 7) :
    (commandWord op arg).extractLsb' 0 7 = arg :=
  BitVec.extractLsb'_append_eq_right

@[simp] theorem Opcode.ofBits_bits (op : Opcode) : Opcode.ofBits op.bits = op := by
  cases op <;> rfl

@[simp] theorem Opcode.bits_ofBits (b : BitVec 3) : (Opcode.ofBits b).bits = b := by
  revert b
  decide

/-- The two fields of a word make it up (R60). -/
theorem exists_commandWord (cw : CommandWord) : ∃ op arg, cw = commandWord op arg := by
  refine ⟨Opcode.ofBits (opField cw), argField cw, ?_⟩
  rw [commandWord, Opcode.bits_ofBits]
  exact (Machine.port_of_present cw Machine.State.reset).symm

/-- As a number, a word is its opcode times 128 plus its operand. -/
theorem commandWord_toNat (op : Opcode) (arg : BitVec 7) :
    (commandWord op arg).toNat = op.bits.toNat * 2 ^ 7 + arg.toNat := by
  rw [commandWord, BitVec.toNat_append, ← Nat.shiftLeft_add_eq_or_of_lt arg.isLt, Nat.shiftLeft_eq]

/-- The words from 0x380 on are those of the reserved opcode (R67). -/
theorem le_commandWord_toNat_iff (op : Opcode) (arg : BitVec 7) :
    0x380 ≤ (commandWord op arg).toNat ↔ op = .rsvd7 := by
  have harg := arg.isLt
  rw [commandWord_toNat]
  cases op <;> simp [Opcode.bits] <;> omega

theorem decode_commandWord_rsvd7 (x : BitVec 7) : decode (commandWord .rsvd7 x) = .rsvd7 x := by
  simp [decode, opField, argField]

end Sys2Proof

namespace Sys2Proof.Machine

/-- What every command does: the one it decodes to drives `respond` of the word, from every state (R61). -/
theorem exec_decode (cw : CommandWord) (s : State) : exec (decode cw) s = .next (drive (respond cw) s) := by
  obtain ⟨op, arg, rfl⟩ := exists_commandWord cw
  simp only [decode, respond, opField, argField, opBits_commandWord, argBits_commandWord, Opcode.ofBits_bits]
  cases op <;> rfl

/-- What serving a word does, from every state. -/
theorem serve_next (cw : CommandWord) (s : State) : serve cw s = .next (drive (respond cw) (present cw s)) :=
  exec_decode cw (present cw s)

/-- `rsp_ill` is raised by the reserved opcode alone (R66, R67). -/
theorem respond_ill (op : Opcode) (arg : BitVec 7) :
    (respond (commandWord op arg)).ill = if op = .rsvd7 then 1 else 0 := by
  simp only [respond, opBits_commandWord, argBits_commandWord]
  cases op <;> rfl

/-- One more response keeps a run good exactly when it is no fault (R122). -/
@[simp] theorem good_drive (r : Response) (s : State) : (drive r s).good = (s.good && r.ill == 0#1) := by
  simp [State.good]

/-- One more response is one more entry of the observation (R13). -/
@[simp] theorem observation_drive (r : Response) (s : State) :
    (drive r s).observation = s.observation ++ [r.observed] := by
  simp [State.observation]

/-- Settles O16: `respond` is what serving a word drives; the port and the record are what presenting it writes. -/
theorem serveRefinesRespond : Obligations.ServeRefinesRespond := by
  intro cw s
  exact serve_next cw s

/-- Settles O13: the response to a word has `rsp_ill` 1 for the reserved opcode and 0 for every other, and the words of
the reserved opcode are those from 0x380 on. -/
theorem illegalExactlyOnReservedOpcode : Obligations.IllegalExactlyOnReservedOpcode := by
  intro cw s
  refine ⟨_, exec_decode cw s, ?_⟩
  obtain ⟨op, arg, rfl⟩ := exists_commandWord cw
  rw [drive_rspIll, respond_ill, ← Nat.not_le, le_commandWord_toNat_iff]
  by_cases hop : op = .rsvd7 <;> simp [hop]

/-- Settles O12: the exception drives the response ⟨1, 0⟩ and nothing else, and what is served next does not read the
state. -/
theorem reservedOpcodeRaisesIllegalCommand : Obligations.ReservedOpcodeRaisesIllegalCommand := by
  intro x s
  refine ⟨decode_commandWord_rsvd7 x, drive ⟨1, 0⟩ s, raiseIllegalCommand_next s, rfl, ?_, ?_, fun cw => ?_⟩
  · simp
  · simp [Response.observed, illRaised]
  · exact ⟨_, _, serve_next cw _, serve_next cw s, rfl, rfl⟩

/-- The matrix encoder does not look at the ignored operand bits (R65). -/
theorem exec_encM (x : BitVec 3) (d : DataValue) (s : State) : exec (.encM x d) s = .next (drive ⟨0, enc d⟩ s) :=
  answer_next (enc d) s

/-- The table encoder does not look at the ignored operand bits (R65). -/
theorem exec_encT (x : BitVec 3) (d : DataValue) (s : State) : exec (.encT x d) s = .next (drive ⟨0, encRom d⟩ s) :=
  answer_next (encRom d) s

/-- Settles O6: each encoder answers one and the same next state, which does not mention the ignored bits. -/
theorem encodersIgnoreHighOperandBits : Obligations.EncodersIgnoreHighOperandBits := by
  intro x d s
  exact ⟨⟨_, exec_encM 0 d s, exec_encM x d s⟩, ⟨_, exec_encT 0 d s, exec_encT x d s⟩⟩

end Sys2Proof.Machine
end

section
/-! The parity sum (`40_parity.md`): the count that the block keeps over the seven positions is the weight of the
operand in 3 bits, so bit 0 of it says whether the weight is odd (R80). -/

namespace Sys2Proof.Machine

/-- A running count kept in `w` bits is the count on integers, reduced to `w` bits (R10, R81). -/
theorem foldl_count_eq_countP {w : Nat} (p : Nat → Bool) (ks : List Nat) (start : BitVec w) :
    ks.foldl (fun n k => if p k then n + 1 else n) start = start + BitVec.ofNat w (ks.countP p) := by
  induction ks generalizing start with
  | nil => simp
  | cons k ks ih =>
    rw [List.foldl_cons, ih, List.countP_cons]
    split
    · rw [BitVec.ofNat_add, BitVec.add_assoc, BitVec.add_comm 1]
      rfl
    · rfl

/-- The block's count over positions 6:0 is the number of set bits (R12). -/
theorem popcount7_eq_weight (v : BitVec 7) : popcount7 v = BitVec.ofNat 3 (weight v) := by
  have hpositions : positions = List.range 7 := rfl
  rw [popcount7, foldl_count_eq_countP, hpositions, weight]
  exact BitVec.zero_add _

/-- `par7` is the number of set bits modulo 2 (R10, R12). -/
theorem par7_eq_weight (v : BitVec 7) : par7 v = BitVec.ofNat 1 (weight v) := by
  rw [par7, popcount7_eq_weight, ← BitVec.setWidth_eq_extractLsb' (by decide)]
  exact BitVec.setWidth_ofNat_of_le (by decide) _

/-- One bit as a result: it is 1 or 0, and the bits above it are 0 (R62). -/
theorem zext7_ofNat_one (n : Nat) : zext7 (BitVec.ofNat 1 n) = if n % 2 = 1 then 1 else 0 := by
  apply BitVec.eq_of_toNat_eq
  rcases Nat.mod_two_eq_zero_or_one n with hn | hn <;> simp [zext7, hn]

/-- What the parity command drives, from every state. -/
theorem exec_par (v : BitVec 7) (s : State) : exec (.par v) s = .next (drive ⟨0, zext7 (par7 v)⟩ s) :=
  answer_next (zext7 (par7 v)) s

theorem decode_commandWord_par (v : BitVec 7) : decode (commandWord .par v) = .par v := by
  simp [decode, opField, argField]

/-- Settles O1: the command drives `par7`, which is the weight of the operand modulo 2. -/
theorem parAnswersOddness : Obligations.ParAnswersOddness := by
  intro v s
  refine ⟨decode_commandWord_par v, ?_⟩
  rw [exec_par, par7_eq_weight, zext7_ofNat_one]
  rfl

end Sys2Proof.Machine
end

section
/-! The encoder (`41_encode.md`): the matrix method of any matrix puts the inner product of row `i` with the data value
in bit `6-i`; this hardware's last four rows are the single-bit values, so the data bits stay in place (R90). -/

namespace Sys2Proof

/-- A word written as opcode, ignored bits and data value is that opcode's word with the operand of R64 and R65. -/
theorem append_append_eq_commandWord (op : Opcode) (x : BitVec 3) (d : DataValue) :
    op.bits ++ x ++ d = commandWord op (x ++ d) := by
  rw [BitVec.append_assoc, BitVec.cast_eq, commandWord]

@[simp] theorem ignoredField_append (x : BitVec 3) (d : DataValue) : ignoredField (x ++ d) = x :=
  BitVec.extractLsb'_append_eq_left

@[simp] theorem dataField_append (x : BitVec 3) (d : DataValue) : dataField (x ++ d) = d :=
  BitVec.extractLsb'_append_eq_right

theorem decode_encM_word (x : BitVec 3) (d : DataValue) : decode (1#3 ++ x ++ d) = .encM x d := by
  have hword : 1#3 ++ x ++ d = commandWord .encM (x ++ d) := append_append_eq_commandWord .encM x d
  rw [hword]
  simp [decode, opField, argField]

theorem decode_encT_word (x : BitVec 3) (d : DataValue) : decode (2#3 ++ x ++ d) = .encT x d := by
  have hword : 2#3 ++ x ++ d = commandWord .encT (x ++ d) := append_append_eq_commandWord .encT x d
  rw [hword]
  simp [decode, opField, argField]

end Sys2Proof

namespace Sys2Proof.Machine

/-- Settles O4: the command drives its table read, and that read is the entry at the data value. -/
theorem encTReadsEncodeTable : Obligations.EncTReadsEncodeTable := by
  intro x d s
  exact ⟨decode_encT_word x d, encRom d, readTableAt_eq_getElem Tables.ENC_ROM d, exec_encT x d s⟩

/-- Shifting an accumulator left and appending one bit per row leaves the bit of the `k`-th row from the end in
position `k` (R90, R100). -/
theorem getLsbD_foldl_appendBit {α : Type} {w : Nat} (bit : α → BitVec 1) (rows : List α) (start : BitVec w)
    {k : Nat} {row : α} (hrow : rows.reverse[k]? = some row) (hk : k < w) :
    (rows.foldl (fun (r : BitVec w) a => (r <<< 1) ^^^ (bit a).setWidth w) start).getLsbD k =
      (bit row).getLsbD 0 := by
  induction rows using List.reverseRecOn generalizing k with
  | nil => simp at hrow
  | append_singleton rows last ih =>
    rw [List.foldl_concat, BitVec.getLsbD_xor, BitVec.getLsbD_shiftLeft, BitVec.getLsbD_setWidth]
    rw [List.reverse_concat] at hrow
    cases k with
    | zero =>
      obtain rfl : last = row := Option.some.inj hrow
      simp [hk]
    | succ k => simp [hk, ih hrow (Nat.lt_of_succ_lt hk)]

/-- Zero-extension keeps the number of set bits (R10, R62). -/
theorem weight_setWidth_of_le {w n : Nat} (h : w ≤ n) (v : BitVec w) : weight (v.setWidth n) = weight v := by
  obtain ⟨m, rfl⟩ := Nat.exists_eq_add_of_le h
  have hlow : (List.range w).countP (v.setWidth (w + m)).getLsbD = weight v :=
    List.countP_congr fun k hk => by simp [Nat.lt_add_right m (List.mem_range.mp hk)]
  have hhigh : ((List.range m).map (w + ·)).countP (v.setWidth (w + m)).getLsbD = 0 := by simp
  rw [weight, List.range_add, List.countP_append, hlow, hhigh, Nat.add_zero]

/-- `par7` of a zero-extended value is its modulo-2 sum (R10). -/
theorem par7_zext7_getLsbD {w : Nat} (h : w ≤ 7) (v : BitVec w) : (par7 (zext7 v)).getLsbD 0 = oddWeight v := by
  rw [par7_eq_weight, zext7, weight_setWidth_of_le h, BitVec.getLsbD_ofNat, Nat.testBit_zero]
  rfl

/-- Bit `6-i` of the matrix method is the inner product of row `i` with the data value, for any matrix (R90). -/
theorem encWith_getLsbD (gt : Table DataValue 7) (d : DataValue) (i : Fin 7) :
    (encWith gt d).getLsbD (6 - i.val) = oddWeight (readTable gt i &&& d) := by
  have hrow : gt.entries.reverse[6 - i.val]? = some (readTable gt i) := by
    rw [List.getElem?_reverse (by rw [gt.size_eq]; omega), gt.size_eq, show 7 - 1 - (6 - i.val) = i.val by omega,
      readTable_eq_getElem]
  rw [← par7_zext7_getLsbD (by decide)]
  exact getLsbD_foldl_appendBit (fun row => par7 (zext7 (row &&& d))) _ _ hrow (by omega)

/-- The inner product with a single-bit row is that bit of the data value. -/
theorem oddWeight_twoPow_and (d : DataValue) (k : Fin 4) :
    oddWeight (BitVec.twoPow 4 k.val &&& d) = d.getLsbD k.val := by
  have hone : oddWeight (BitVec.twoPow 4 k.val) = true := by
    revert k
    decide
  have hzero : oddWeight 0#4 = false := by decide
  rw [BitVec.twoPow_and]
  cases d.getLsbD k.val
  · exact hzero
  · exact hone

/-- The last four rows of GT are the single-bit values (R25). -/
theorem readTable_GT_dataRow (k : Fin 4) : readTable Tables.GT ⟨6 - k.val, by omega⟩ = BitVec.twoPow 4 k.val := by
  revert k
  decide

/-- The code is systematic: bit `k` of a codeword is the inner product with a single-bit row (R94 (a)). -/
theorem enc_dataBits (d : DataValue) : (enc d).extractLsb' 0 4 = d := by
  refine BitVec.eq_of_getLsbD_eq fun k hk => ?_
  have h := encWith_getLsbD Tables.GT d ⟨6 - k, by omega⟩
  rw [readTable_GT_dataRow ⟨k, hk⟩, oddWeight_twoPow_and, show 6 - (6 - k) = k by omega] at h
  rw [BitVec.getLsbD_extractLsb', decide_eq_true hk, Bool.true_and, Nat.zero_add]
  exact h

/-- Settles O2: the command drives `enc d`, whose bits are the inner products, those with the last four rows being the
data bits. -/
theorem encMAnswersInnerProducts : Obligations.EncMAnswersInnerProducts := by
  intro x d s
  exact ⟨decode_encM_word x d, enc d, exec_encM x d s,
    fun i => ⟨_, readTable_eq_getElem Tables.GT i, encWith_getLsbD Tables.GT d i⟩, enc_dataBits d⟩

end Sys2Proof.Machine
end

section
/-! The decoder (`42_decode.md`): the modulo-2 sum is the exclusive or of the bits, so the syndrome of any
parity-check matrix is one exclusive or for each row; what each of the four commands drives, from every state; the packed
table's index and nibble by arithmetic; and the data bits that each correction mask inverts (R100, R101, R104, R105). -/

namespace Sys2Proof

/-- The word of a command decodes to that command, every bit of its operand kept (R60, R63). -/
theorem decode_encode (i : Instr) : decode (encode i) = i := by
  cases i <;> simp [encode, decode, opField, argField, Instr.opcode, Instr.operandBits]

end Sys2Proof

namespace Sys2Proof.Machine

/-- A syndrome as a result: four zeros above it (R62). -/
theorem zext7_syndrome (v : Syndrome) : zext7 v = 0#4 ++ v :=
  BitVec.setWidth_eq_append (by decide)

/-- A data value as a result: three zeros above it (R62). -/
theorem zext7_dataValue (d : DataValue) : zext7 d = 0#3 ++ d :=
  BitVec.setWidth_eq_append (by decide)

theorem exec_syn (c : Codeword) (s : State) : exec (.syn c) s = .next (drive ⟨0, 0#4 ++ syn c⟩ s) := by
  rw [← zext7_syndrome]
  exact answer_next _ s

theorem exec_decM (c : Codeword) (s : State) : exec (.decM c) s = .next (drive ⟨0, 0#3 ++ dec c⟩ s) := by
  rw [← zext7_dataValue]
  exact answer_next _ s

theorem exec_decT (c : Codeword) (s : State) : exec (.decT c) s = .next (drive ⟨0, 0#3 ++ decRom c⟩ s) := by
  rw [← zext7_dataValue]
  exact answer_next _ s

theorem exec_decP (c : Codeword) (s : State) : exec (.decP c) s = .next (drive ⟨0, 0#3 ++ decPacked c⟩ s) := by
  rw [← zext7_dataValue]
  exact answer_next _ s

/-- A count is odd exactly when the exclusive or of what is counted is true (R10). -/
theorem countP_odd_eq_foldr_xor {α : Type} (p : α → Bool) (ks : List α) :
    (ks.countP p % 2 == 1) = ks.foldr (fun k acc => acc ^^ p k) false := by
  induction ks with
  | nil => rfl
  | cons k ks ih =>
    rw [List.foldr_cons, ← ih, List.countP_cons]
    rcases Nat.mod_two_eq_zero_or_one (ks.countP p) with h | h <;> cases p k <;> simp [Nat.add_mod, h]

/-- The modulo-2 sum of a value is the exclusive or of its bits (R10). -/
theorem oddWeight_eq_foldr_xor {w : Nat} (v : BitVec w) :
    oddWeight v = (List.range w).foldr (fun k acc => acc ^^ v.getLsbD k) false :=
  countP_odd_eq_foldr_xor v.getLsbD (List.range w)

/-- Bit `2-j` of the syndrome is the inner product of row `j` with the word, for any matrix (R100). -/
theorem synWith_getLsbD (h : Table Codeword 3) (c : Codeword) (j : Fin 3) :
    (synWith h c).getLsbD (2 - j.val) = oddWeight (readTable h j &&& c) := by
  have hrow : h.entries.reverse[2 - j.val]? = some (readTable h j) := by
    rw [List.getElem?_reverse (by rw [h.size_eq]; omega), h.size_eq, show 3 - 1 - (2 - j.val) = j.val by omega,
      readTable_eq_getElem]
  have hpar := par7_zext7_getLsbD (Nat.le_refl 7) (readTable h j &&& c)
  rw [zext7, BitVec.setWidth_eq] at hpar
  rw [← hpar]
  exact getLsbD_foldl_appendBit (fun row => par7 (row &&& c)) _ _ hrow (by omega)

/-- The inner product with a row is the exclusive or of the bits at the positions that the row selects. -/
theorem oddWeight_and_of_positions {w : Nat} {row : BitVec w} {ks : List Nat}
    (hks : (List.range w).filter row.getLsbD = ks) (c : BitVec w) :
    oddWeight (row &&& c) = ks.foldr (fun k acc => acc ^^ c.getLsbD k) false := by
  rw [oddWeight_eq_foldr_xor, ← hks, List.foldr_filter]
  congr 1
  funext k acc
  rw [BitVec.getLsbD_and]
  cases row.getLsbD k <;> simp

/-- Bit `2-j` of the syndrome is the exclusive or of the bits that row `j` selects, for any matrix (R100). -/
theorem synWith_getLsbD_of_positions {h : Table Codeword 3} {j : Fin 3} {ks : List Nat}
    (hks : (List.range 7).filter (readTable h j).getLsbD = ks) (c : Codeword) :
    (synWith h c).getLsbD (2 - j.val) = ks.foldr (fun k acc => acc ^^ c.getLsbD k) false :=
  (synWith_getLsbD h c j).trans (oddWeight_and_of_positions hks c)

/-- Row 0 of H selects bits 6, 2, 1 and 0 (R100). -/
theorem syn_getLsbD_two (c : Codeword) : (syn c).getLsbD 2 = synGate2 c := by
  rw [synGate2, ← Bool.false_xor (c.getLsbD 6)]
  exact synWith_getLsbD_of_positions (h := Tables.H) (j := 0) (ks := [0, 1, 2, 6]) (by decide) c

/-- Row 1 of H selects bits 5, 3, 1 and 0 (R100). -/
theorem syn_getLsbD_one (c : Codeword) : (syn c).getLsbD 1 = synGate1 c := by
  rw [synGate1, ← Bool.false_xor (c.getLsbD 5)]
  exact synWith_getLsbD_of_positions (h := Tables.H) (j := 1) (ks := [0, 1, 3, 5]) (by decide) c

/-- Row 2 of H selects bits 4, 3, 2 and 0 (R100). -/
theorem syn_getLsbD_zero (c : Codeword) : (syn c).getLsbD 0 = synGate0 c := by
  rw [synGate0, ← Bool.false_xor (c.getLsbD 4)]
  exact synWith_getLsbD_of_positions (h := Tables.H) (j := 2) (ks := [0, 2, 3, 4]) (by decide) c

/-- Settles O7: the command drives `syn c`, whose bits are the inner products with the rows of H, and each row selects
the four bits of its equation. -/
theorem synAnswersSyndrome : Obligations.SynAnswersSyndrome := by
  intro c s
  exact ⟨decode_encode (.syn c), syn c, exec_syn c s,
    fun j => ⟨_, readTable_eq_getElem Tables.H j, synWith_getLsbD Tables.H c j⟩,
    syn_getLsbD_two c, syn_getLsbD_one c, syn_getLsbD_zero c⟩

/-- Settles O9: the command drives its table read, and that read is the entry at the word. -/
theorem decTReadsDecodeTable : Obligations.DecTReadsDecodeTable := by
  intro c s
  exact ⟨decode_encode (.decT c), decRom c, readTableAt_eq_getElem Tables.DEC_ROM c, exec_decT c s⟩

/-- The unit index is the integer quotient by 2 (R43 (c)). -/
theorem unitIndex_toNat (c : Codeword) : (unitIndex c).toNat = c.toNat / 2 := by
  have hc := c.isLt
  rw [unitIndex, BitVec.extractLsb'_toNat, Nat.shiftRight_eq_div_pow]
  omega

/-- Bit 0 of a word says whether the word is odd. -/
theorem getLsbD_zero_eq_odd (c : Codeword) : c.getLsbD 0 = decide (c.toNat % 2 = 1) := by
  rw [← BitVec.testBit_toNat, Nat.testBit_zero]

/-- The nibble select by arithmetic: the remainder by 16 for an odd word, the quotient for an even one (R46). -/
theorem nib_toNat (u : PackedUnit) (c : Codeword) :
    (nib u c).toNat = if c.toNat % 2 = 1 then u.toNat % 16 else u.toNat / 16 := by
  have hu := u.isLt
  rw [nib, getLsbD_zero_eq_odd]
  by_cases h : c.toNat % 2 = 1
  · simp [h]
  · simp only [h, decide_false, Bool.false_eq_true, if_false, BitVec.extractLsb'_toNat, Nat.shiftRight_eq_div_pow]
    omega

/-- Settles O10: the command drives the nibble of the unit it reads, whose index is `c / 2`. -/
theorem decPReadsPackedNibble : Obligations.DecPReadsPackedNibble := by
  intro c s
  refine ⟨decode_encode (.decP c), readTableAt Tables.PDEC_ROM (unitIndex c), decPacked c, ?_, nib_toNat _ c,
    exec_decP c s⟩
  rw [← unitIndex_toNat]
  exact readTableAt_eq_getElem Tables.PDEC_ROM (unitIndex c)

/-- The correction masks of syndromes 0, 1, 2 and 4 touch no data bit (R101). -/
theorem readTableAt_SMASK_dataBits_of_parity :
    ∀ v ∈ ([0, 1, 2, 4] : List Syndrome), (readTableAt Tables.SMASK v).extractLsb' 0 4 = 0#4 := by
  decide

/-- The correction masks of syndromes 3, 5, 6 and 7 touch exactly one data bit (R101). -/
theorem weight_readTableAt_SMASK_dataBits_of_data :
    ∀ v ∈ ([3, 5, 6, 7] : List Syndrome), weight ((readTableAt Tables.SMASK v).extractLsb' 0 4) = 1 := by
  decide

/-- Settles O8: the command drives the data bits of `c` with those of the correction mask inverted, and the mask is one
of the eight entries of SMASK. -/
theorem decMAnswersCorrectedData : Obligations.DecMAnswersCorrectedData := by
  intro c s
  refine ⟨decode_encode (.decM c), correctionMask c, readTableAt_eq_getElem Tables.SMASK (syn c), exec_decM c s,
    fun hparity => ?_, fun hdata => ?_⟩
  · rw [BitVec.extractLsb'_xor, correctionMask, readTableAt_SMASK_dataBits_of_parity _ hparity, BitVec.xor_zero]
  · rw [BitVec.extractLsb'_xor, BitVec.xor_comm, ← BitVec.xor_assoc, BitVec.xor_self, BitVec.zero_xor, correctionMask]
    exact weight_readTableAt_SMASK_dataBits_of_data _ hdata

end Sys2Proof.Machine
end

section
/-! What decoding guarantees (`42_decode.md` section 6): the syndrome is linear and 0 on codewords, so it is that of the
error pattern alone, and SMASK gives an error pattern of at most one bit back. The table encoder and the two table
decoders compute the same functions as the matrix ones, so the guarantee is theirs too (R92, R106, R107). -/

namespace Sys2Proof.Machine

/-- The modulo-2 sum is linear (R83). -/
theorem oddWeight_xor {w : Nat} (a b : BitVec w) : oddWeight (a ^^^ b) = (oddWeight a ^^ oddWeight b) := by
  simp only [oddWeight_eq_foldr_xor, BitVec.getLsbD_xor]
  induction List.range w with
  | nil => rfl
  | cons k ks ih =>
    rw [List.foldr_cons, List.foldr_cons, List.foldr_cons, ih]
    simp only [Bool.xor_assoc, Bool.xor_left_comm, Bool.xor_comm]

/-- Conjunction distributes over the exclusive or, bit by bit. -/
theorem and_xor_distrib_left {w : Nat} (m a b : BitVec w) : m &&& (a ^^^ b) = m &&& a ^^^ m &&& b := by
  refine BitVec.eq_of_getLsbD_eq fun k _ => ?_
  simp only [BitVec.getLsbD_and, BitVec.getLsbD_xor, Bool.and_xor_distrib_left]

/-- A syndrome is its three bits, numbered by the rows that make them. -/
theorem syndrome_ext {a b : Syndrome} (h : ∀ j : Fin 3, a.getLsbD (2 - j.val) = b.getLsbD (2 - j.val)) : a = b := by
  refine BitVec.eq_of_getLsbD_eq fun k hk => ?_
  simpa [show 2 - (2 - k) = k by omega] using h ⟨2 - k, by omega⟩

/-- The syndrome is linear, for any matrix (R28 (b)). -/
theorem synWith_xor (h : Table Codeword 3) (a b : Codeword) :
    synWith h (a ^^^ b) = synWith h a ^^^ synWith h b := by
  refine syndrome_ext fun j => ?_
  simp only [BitVec.getLsbD_xor, synWith_getLsbD, and_xor_distrib_left, oddWeight_xor]

/-- The syndrome of this hardware is linear (R28 (b)). -/
theorem syn_xor (a b : Codeword) : syn (a ^^^ b) = syn a ^^^ syn b :=
  synWith_xor Tables.H a b

/-- A corrupted codeword has the syndrome of its error pattern, since a codeword has syndrome 0 (R28). -/
theorem syn_enc_xor (d : DataValue) (m : Codeword) : syn (enc d ^^^ m) = syn m := by
  have hvalid : ∀ d : DataValue, syn (enc d) = 0#3 := by decide
  rw [syn_xor, hvalid, BitVec.zero_xor]

/-- A value with at most one bit set is 0 or a single bit. -/
theorem eq_zero_or_twoPow_of_weight_le_one {w : Nat} {v : BitVec w} (h : weight v ≤ 1) :
    v = 0#w ∨ ∃ k : Fin w, v = BitVec.twoPow w k.val := by
  rw [weight, List.countP_eq_length_filter] at h
  have hmem : ∀ j < w, j ∈ (List.range w).filter v.getLsbD ↔ v.getLsbD j = true := by
    intro j hj
    simp [hj]
  match hbits : (List.range w).filter v.getLsbD with
  | [] =>
    refine .inl (BitVec.eq_of_getLsbD_eq fun j hj => ?_)
    simpa [hbits] using hmem j hj
  | [k] =>
    have hk : k < w := List.mem_range.mp (List.mem_of_mem_filter (hbits ▸ List.mem_singleton_self k))
    refine .inr ⟨⟨k, hk⟩, BitVec.eq_of_getLsbD_eq fun j hj => ?_⟩
    rw [BitVec.getLsbD_twoPow, Bool.eq_iff_iff, ← hmem j hj, hbits]
    simp [hk, eq_comm]
  | _ :: _ :: _ => simp [hbits] at h

/-- SMASK gives an error pattern of at most one bit back from its syndrome (R30). -/
theorem correctionMask_of_weight_le_one {m : Codeword} (h : weight m ≤ 1) : correctionMask m = m := by
  have hzero : correctionMask 0#7 = 0#7 := by decide
  have hbit : ∀ k : Fin 7, correctionMask (BitVec.twoPow 7 k.val) = BitVec.twoPow 7 k.val := by decide
  obtain rfl | ⟨k, rfl⟩ := eq_zero_or_twoPow_of_weight_le_one h
  · exact hzero
  · exact hbit k

/-- The matrix decoder recovers the data value of a codeword with at most one bit flipped (R107). -/
theorem dec_enc_xor_of_weight_le_one (d : DataValue) {m : Codeword} (h : weight m ≤ 1) : dec (enc d ^^^ m) = d := by
  have hmask : correctionMask (enc d ^^^ m) = m := by
    rw [correctionMask, syn_enc_xor]
    exact correctionMask_of_weight_le_one h
  calc dec (enc d ^^^ m) = (enc d ^^^ m ^^^ correctionMask (enc d ^^^ m)).extractLsb' 0 4 := rfl
    _ = (enc d).extractLsb' 0 4 := by rw [hmask, BitVec.xor_assoc, BitVec.xor_self, BitVec.xor_zero]
    _ = d := enc_dataBits d

/-- The table encoder computes what the matrix encoder does (R92). -/
theorem encRom_eq_enc (d : DataValue) : encRom d = enc d :=
  Option.some.inj ((readTableAt_eq_getElem Tables.ENC_ROM d).symm.trans (encodeTableLaw d))

/-- The printed decode table holds, at every word, what the matrix decoder computes (R34). -/
theorem decRom_eq_dec : ∀ c : Codeword, decRom c = dec c := by
  decide

/-- The nibble select undoes the packing, of any decode table (R46). -/
theorem nib_readTableAt_pdecRomOf (decTable : Table DataValue (2 ^ 7)) (c : Codeword) :
    nib (readTableAt (pdecRomOf decTable) (unitIndex c)) c = readTableAt decTable c := by
  have hunit := (readTableAt_eq_getElem (pdecRomOf decTable) (unitIndex c)).symm.trans
    (pdecRomOf_getElem? decTable (unitIndex c).toFin)
  have hindex : (unitIndex c).toFin.val = c.toNat / 2 := unitIndex_toNat c
  rw [Option.some.inj hunit, nib, hindex, getLsbD_zero_eq_odd]
  rcases Nat.mod_two_eq_zero_or_one c.toNat with heven | hodd
  · rw [if_neg (by simp [heven]), BitVec.extractLsb'_append_eq_left, show 2 * (c.toNat / 2) = c.toNat by omega,
      BitVec.ofNat_toNat, BitVec.setWidth_eq]
  · rw [if_pos (by simp [hodd]), BitVec.extractLsb'_append_eq_right, show 2 * (c.toNat / 2) + 1 = c.toNat by omega,
      BitVec.ofNat_toNat, BitVec.setWidth_eq]

/-- The packed decoder computes what the table decoder does (R106). -/
theorem decPacked_eq_decRom (c : Codeword) : decPacked c = decRom c := by
  rw [decPacked, PDEC_ROM_eq_pdecRomOf]
  exact nib_readTableAt_pdecRomOf Tables.DEC_ROM c

/-- Each encoder drives the codeword (R92). -/
theorem exec_encoder {x : BitVec 3} {d : DataValue} {e : Instr} (he : e ∈ [Instr.encM x d, .encT x d]) (s : State) :
    exec e s = .next (drive ⟨0, enc d⟩ s) := by
  simp only [List.mem_cons, List.not_mem_nil, or_false] at he
  obtain rfl | rfl := he
  · exact exec_encM x d s
  · rw [exec_encT, encRom_eq_enc]

/-- Each decoder drives the answer of the matrix decoder (R106). -/
theorem exec_decoder {k : Codeword → Instr} (hk : k ∈ [Instr.decM, .decT, .decP]) (c : Codeword) (s : State) :
    exec (k c) s = .next (drive ⟨0, 0#3 ++ dec c⟩ s) := by
  simp only [List.mem_cons, List.not_mem_nil, or_false] at hk
  obtain rfl | rfl | rfl := hk
  · exact exec_decM c s
  · rw [exec_decT, decRom_eq_dec]
  · rw [exec_decP, decPacked_eq_decRom, decRom_eq_dec]

/-- Settles O20: every encoder drives the codeword and every decoder the matrix decoder's answer, which is the data value
when at most one bit was flipped. -/
theorem singleBitErrorsCorrected : Obligations.SingleBitErrorsCorrected := by
  intro x d m s hm e he
  refine ⟨_, exec_encoder he s, fun k hk => ⟨_, exec_decoder hk _ _, rfl, ?_⟩⟩
  rw [drive_rspVal, drive_rspVal, dec_enc_xor_of_weight_le_one d hm]

end Sys2Proof.Machine
end

section
/-! The first command (`70_reset_and_hazards.md`): a step that is given a word to present serves that word, from every
state, and the reset state has nothing in its record before it (R141). -/

namespace Sys2Proof.Machine

/-- A step that is given a word to present puts it on the port and drives `respond` of it, from every state (R61). -/
theorem step_withFetchWord_toNat (s : State) (nbits : Nat) (cw : CommandWord) :
    step (s.withFetchWord nbits cw.toNat) = .next (drive (respond cw) (present cw s)) := by
  have hword : BitVec.ofNat 10 cw.toNat = cw := by rw [BitVec.ofNat_toNat, BitVec.setWidth_eq]
  rw [step_withFetchWord, hword]
  exact exec_decode cw (present cw s)

/-- Settles O49: the step serves the word, and the record it appends to is empty at reset. -/
theorem firstCommandIsServed : Obligations.FirstCommandIsServed := by
  intro cw
  refine ⟨_, step_withFetchWord_toNat State.reset 16 cw, rfl, ?responses, ?presented⟩
  case responses => rw [drive_responses, present_responses, State.reset, List.nil_append]
  case presented => rw [drive_presented, present_presented, State.reset, List.nil_append]

end Sys2Proof.Machine
end

section
/-! Command words and commands, both ways (`30_encoding.md` sections 1, 2, 4 and 6): decoding and encoding undo each other
on the 1024 words, no other number is a word, and the word of a command selects the row of its opcode. -/

namespace Sys2Proof

/-- An encode operand is its ignored bits and its data value (R64, R65). -/
theorem ignoredField_append_dataField (arg : BitVec 7) : ignoredField arg ++ dataField arg = arg :=
  BitVec.extractLsb'_append_extractLsb'_eq_extractLsb' (by decide) |>.trans BitVec.extractLsb'_eq_self

/-- The word that a command was decoded from is the command's own word: no bit of it is lost (R63, R67). -/
theorem encode_decode (cw : CommandWord) : encode (decode cw) = cw := by
  obtain ⟨op, arg, rfl⟩ := exists_commandWord cw
  simp only [decode, opField, argField, opBits_commandWord, argBits_commandWord, Opcode.ofBits_bits]
  cases op <;>
    simp only [encode, Instr.opcode, Instr.operandBits, ignoredField_append_dataField]

/-- Every command is well formed: a field has exactly the width of its pattern (R67). -/
theorem Instr.wellFormed_eq_true (i : Instr) : i.wellFormed = true := by
  cases i <;> rfl

/-- In the numbering of the opcode table a number that 10 wires carry is the word it numbers (R60). -/
theorem decodeTableWord_of_lt {w : Nat} (nbits : Nat) (hw : w < 1024) :
    decodeTableWord nbits w = some (decode (BitVec.ofNat 10 w)) := by
  rw [decodeTableWord, decodeBits, if_pos hw]

/-- A number that needs an eleventh wire is no word (R60; log 9). -/
theorem decodeTableWord_of_le {w : Nat} (nbits : Nat) (hw : 1024 ≤ w) : decodeTableWord nbits w = none := by
  rw [decodeTableWord, decodeBits, if_neg (Nat.not_lt.mpr hw)]

/-- In the numbering of the opcode table every command word decodes as itself. -/
theorem decodeTableWord_toNat (nbits : Nat) (cw : CommandWord) :
    decodeTableWord nbits cw.toNat = some (decode cw) := by
  rw [decodeTableWord_of_lt nbits cw.isLt, BitVec.ofNat_toNat, BitVec.setWidth_eq]

/-- Settles O38: decoding undoes encoding, and the opcode table numbers the word as the word itself. -/
theorem decodeOfEncode : Obligations.DecodeOfEncode := by
  intro i _
  exact ⟨decode_encode i, by rw [decodeTableWord_toNat, decode_encode]⟩

/-- Settles O39: encoding undoes decoding on the words, and the port has no wire for any other number. -/
theorem encodeOfDecode : Obligations.EncodeOfDecode := by
  intro w
  refine ⟨fun hw => ⟨decodeTableWord_of_lt 16 hw, ?_, Instr.wellFormed_eq_true _⟩, decodeTableWord_of_le 16⟩
  rw [encode_decode, BitVec.toNat_ofNat, Nat.mod_eq_of_lt hw]

/-- The wires 9:7 carry 7 for the reserved opcode alone (R66). -/
theorem Opcode.bits_eq_seven_iff (op : Opcode) : op.bits = 7 ↔ op = .rsvd7 := by
  cases op <;> decide

/-- Two rows of the opcode map have different match values (R63). -/
theorem Opcode.matchBits_inj {a b : Opcode} (h : a.matchBits = b.matchBits) : a = b := by
  have hbits : ∀ op : Opcode, op.matchBits.extractLsb' 7 3 = op.bits := by
    intro op
    cases op <;> rfl
  rw [← Opcode.ofBits_bits a, ← Opcode.ofBits_bits b, ← hbits a, ← hbits b, h]

/-- A word under the mask is the match value of the row of its command (R63). -/
theorem and_mask_eq_matchBits (cw : CommandWord) : cw &&& Opcode.mask = (decode cw).opcode.matchBits := by
  have hrow := Laws.MatchesRow.mask_commandWord (decode cw).opcode (decode cw).operandBits
  rwa [← encode, encode_decode] at hrow

/-- Settles O40: a word matches the row of its own command, and no other row has that match value. -/
theorem wordsSelectRowsByMatchAndMask : Obligations.WordsSelectRowsByMatchAndMask := by
  intro cw op
  rw [and_mask_eq_matchBits]
  exact ⟨congrArg Opcode.matchBits, Opcode.matchBits_inj⟩

/-- Settles O41: each word written out is the word of the command named. -/
theorem wordsOfTheSpecDecode : Obligations.WordsOfTheSpecDecode :=
  ⟨decode_encode (.par 0x2B), decode_encode (.encM 7 1), decode_encode (.encT 4 0xB), decode_encode (.syn 0x0B),
    decode_encode (.decM 0x7F), decode_encode (.decT 0x0B), decode_encode (.decP 0x0B), decode_encode (.rsvd7 0x2A)⟩

/-- Settles O42: within 7 bits the operand is kept as it is, and its word is the opcode above it. -/
theorem assembledWordIsOpcodeAndOperand : Obligations.AssembledWordIsOpcodeAndOperand := by
  intro op n
  refine ⟨fun hn => ⟨commandWord op (BitVec.ofNat 7 n), if_pos hn, ?_⟩, fun hn => if_neg (Nat.not_le.mpr hn)⟩
  have hfits : n % 2 ^ 7 = n := Nat.mod_eq_of_lt (by omega)
  rw [commandWord, BitVec.toNat_append, BitVec.toNat_ofNat, hfits]

/-- Settles O43: `r<k>` counts from 1, and an operator of two operands that have values works on the values. -/
theorem hostOperandsNameEarlierResponses : Obligations.HostOperandsNameEarlierResponses := by
  intro rs a b k
  refine ⟨?_, fun x y ha hb => ?_⟩
  · cases k with
    | zero => rfl
    | succ k => by_cases hk : k < rs.length <;> simp [HostExpr.eval, hk]
  · simp only [HostExpr.eval, ha, hb, and_self]

end Sys2Proof
end

section
/-! The step and the run (`00_scope.md` R13, `60_exceptions.md` R122, R131): a step presents the word of the next line
and drives `respond` of it, and that is all a step does. A run of well-formed lines serves one word for each line, and on
a platform every block serves the words that are scheduled for it. -/

namespace Sys2Proof.Machine

/-- The state after serving a word: the word on the port and in the record, its response driven (R61). -/
def State.served (s : State) (cw : CommandWord) : State := drive (respond cw) (present cw s)

/-- The words are the words of the lines in order, each operand over the responses before it (R70). -/
inductive Presents : List Response → List Line → List CommandWord → Prop
  | nil (rs : List Response) : Presents rs [] []
  | cons {rs : List Response} {l : Line} {rest : List Line} {cw : CommandWord} {words : List CommandWord} :
      l.word rs = some cw → Presents (rs ++ [respond cw]) rest words → Presents rs (l :: rest) (cw :: words)

@[simp] theorem served_cmdOp (s : State) (cw : CommandWord) : (s.served cw).cmdOp = opField cw := rfl
@[simp] theorem served_cmdArg (s : State) (cw : CommandWord) : (s.served cw).cmdArg = argField cw := rfl
@[simp] theorem served_rspIll (s : State) (cw : CommandWord) : (s.served cw).rspIll = (respond cw).ill := rfl
@[simp] theorem served_rspVal (s : State) (cw : CommandWord) : (s.served cw).rspVal = (respond cw).val := rfl
@[simp] theorem served_pending (s : State) (cw : CommandWord) : (s.served cw).pending = s.pending := rfl
@[simp] theorem served_presented (s : State) (cw : CommandWord) : (s.served cw).presented = s.presented ++ [cw] := rfl
@[simp] theorem served_responses (s : State) (cw : CommandWord) :
    (s.served cw).responses = s.responses ++ [respond cw] := rfl

theorem serve_eq_served (cw : CommandWord) (s : State) : serve cw s = .next (s.served cw) :=
  serve_next cw s

-- == One step ==

/-- A step at the end of the host's list (log 7). -/
theorem step_of_no_line {s : State} (hp : s.pending = []) : step s = .refused .endOfRun := by
  simp only [step, fetch, hp]

/-- A step on a line without a command word (log 8). -/
theorem step_of_no_word {s : State} {l : Line} {rest : List Line} (hp : s.pending = l :: rest)
    (hw : l.word s.responses = none) : step s = .refused .operandHasNoValue := by
  simp only [step, fetch, hp, hw]

/-- A step on a line with a command word runs the command that the word decodes to. -/
theorem step_of_word {s : State} {l : Line} {rest : List Line} {cw : CommandWord} (hp : s.pending = l :: rest)
    (hw : l.word s.responses = some cw) : step s = exec (decode cw) (present cw { s with pending := rest }) := by
  simp only [step, fetch, hp, hw]

/-- So it serves the word (R61). -/
theorem step_eq_served {s : State} {l : Line} {rest : List Line} {cw : CommandWord} (hp : s.pending = l :: rest)
    (hw : l.word s.responses = some cw) : step s = .next (State.served { s with pending := rest } cw) :=
  (step_of_word hp hw).trans (exec_decode cw _)

/-- A step that answers a next state has served the word of the host's next line. -/
theorem step_next_served {s t : State} (h : step s = .next t) :
    ∃ l rest cw, s.pending = l :: rest ∧ l.word s.responses = some cw ∧
      t = State.served { s with pending := rest } cw := by
  obtain ⟨l, rest, cw, hp, hw, hexec⟩ := step_next h
  rw [exec_decode] at hexec
  exact ⟨l, rest, cw, hp, hw, (Host.Outcome.next.inj hexec).symm⟩

/-- Serving a word makes the wires and the trace those of the words presented (R22, R39). -/
theorem inv_served {s : State} (h : s.responses = s.presented.map respond) (cw : CommandWord) :
    (s.served cw).Inv := by
  have hport : (s.served cw).cmdOp ++ (s.served cw).cmdArg = cw := port_of_present cw s
  refine ⟨by rw [hport]; rfl, ?_⟩
  rw [served_responses, served_presented, h, List.map_append, List.map_singleton]

/-- Settles O46: a step serves a word, which keeps the trace and sets the wires anew. -/
theorem stepKeepsWiresAndTrace : Obligations.StepKeepsWiresAndTrace := by
  intro s t ⟨_, htrace⟩ hstep
  obtain ⟨l, rest, cw, -, -, rfl⟩ := step_next_served hstep
  exact inv_served htrace cw

/-- Settles O47: the zero word on the port is `PAR 0`, whose response is 0. -/
theorem resetMeetsWiresAndTrace : Obligations.ResetMeetsWiresAndTrace :=
  ⟨by decide, rfl⟩

/-- Settles O48: the lists are empty, so the run is good, and the wires are those of the invariant. -/
theorem resetHoldsNothing : Obligations.ResetHoldsNothing :=
  ⟨rfl, rfl, rfl, rfl, resetMeetsWiresAndTrace.1⟩

/-- Settles O44: the step on a line with a word, the port's two fields written out. -/
theorem stepRunsTheDecodedCommand : Obligations.StepRunsTheDecodedCommand := by
  intro s l rest cw i hp hw hi _
  rw [step_of_word hp hw, hi]
  rfl

/-- Settles O45: the list is empty, or its next line has no word, or the step serves the word. -/
theorem stepStopsOnlyWithoutACommand : Obligations.StepStopsOnlyWithoutACommand := by
  intro s
  match hp : s.pending with
  | [] => exact .inr (.inl ⟨rfl, step_of_no_line hp⟩)
  | l :: rest =>
    match hw : l.word s.responses with
    | none => exact .inr (.inr ⟨l, rest, rfl, hw, step_of_no_word hp hw⟩)
    | some cw => exact .inl ⟨_, step_eq_served hp hw⟩

/-- The response of a word is observed as the fault for the reserved opcode, and else as its value (R122). -/
theorem observed_respond (op : Opcode) (arg : BitVec 7) :
    (respond (commandWord op arg)).observed =
      if op = .rsvd7 then .fault .illegalCommand else .value (respond (commandWord op arg)).val := by
  rw [Response.observed, respond_ill]
  by_cases hop : op = .rsvd7 <;> simp [hop, illRaised]

/-- Settles O51: the step appends the response of the word it serves, which is a fault for opcode 7 alone. -/
theorem faultStaysInTheTrace : Obligations.FaultStaysInTheTrace := by
  intro s t hstep
  obtain ⟨l, rest, cw, -, -, rfl⟩ := step_next_served hstep
  obtain ⟨op, arg, rfl⟩ := exists_commandWord cw
  have hop : (State.served { s with pending := rest } (commandWord op arg)).cmdOp = 7 ↔ op = .rsvd7 := by
    rw [served_cmdOp, opField, opBits_commandWord, Opcode.bits_eq_seven_iff]
  refine ⟨?_, ?_⟩
  · rw [ne_eq, hop, State.served, good_drive, respond_ill, Bool.and_eq_true]
    by_cases h : op = .rsvd7 <;> simp [h, State.good]
  · simp only [hop]
    rw [State.served, observation_drive, observed_respond]
    rfl

-- == A run of well-formed lines ==

/-- A well-formed line has a word once the lines before it have responded (R70). -/
theorem word_of_wellFormed {rs : List Response} {l : Line} (h : l.operand.wellFormed rs.length = true) :
    ∃ cw, l.word rs = some cw := by
  obtain ⟨v, hv⟩ := eval_of_wellFormed rs l.operand h
  exact ⟨commandWord l.op v, by rw [Line.word, hv, Option.map_some]⟩

/-- A well-formed program is a well-formed line and a program that has one line more before it. -/
theorem programWellFormed_cons {n : Nat} {l : Line} {rest : List Line} :
    programWellFormed n (l :: rest) = true ↔
      l.operand.wellFormed n = true ∧ programWellFormed (n + 1) rest = true := by
  rw [programWellFormed, Bool.and_eq_true]

/-- Settles O55: the step takes one line away and adds one response. -/
theorem stepKeepsProgramWellFormed : Obligations.StepKeepsProgramWellFormed := by
  intro s hwf
  refine ⟨fun t hstep => ?_, fun hne => ?_⟩
  · obtain ⟨l, rest, cw, hp, -, rfl⟩ := step_next_served hstep
    obtain ⟨-, hrest⟩ := programWellFormed_cons.mp (hp ▸ hwf)
    rwa [served_responses, served_pending, List.length_append]
  · obtain ⟨l, rest, hp⟩ := List.exists_cons_of_ne_nil hne
    obtain ⟨hl, -⟩ := programWellFormed_cons.mp (hp ▸ hwf)
    obtain ⟨cw, hw⟩ := word_of_wellFormed hl
    exact ⟨_, step_eq_served hp hw⟩

/-- Settles O56: nothing is pending at reset and nothing has responded, so the program loaded is all there is. -/
theorem resetProgramWellFormed : Obligations.ResetProgramWellFormed := by
  refine ⟨rfl, fun program hwf => ?_⟩
  rw [load_responses, load_pending, State.reset, List.append_nil]
  exact hwf

/-- The lines of a well-formed program present one word each. -/
theorem exists_presents (lines : List Line) (rs : List Response) (h : programWellFormed rs.length lines = true) :
    ∃ words, Presents rs lines words := by
  induction lines generalizing rs with
  | nil => exact ⟨[], .nil rs⟩
  | cons l rest ih =>
    obtain ⟨hl, hrest⟩ := programWellFormed_cons.mp h
    obtain ⟨cw, hw⟩ := word_of_wellFormed hl
    obtain ⟨words, hwords⟩ := ih (rs ++ [respond cw]) (by rwa [List.length_append])
    exact ⟨cw :: words, .cons hw hwords⟩

theorem Presents.length_eq {rs : List Response} {lines : List Line} {words : List CommandWord}
    (h : Presents rs lines words) : words.length = lines.length := by
  induction h with
  | nil => rfl
  | cons _ _ ih => rw [List.length_cons, List.length_cons, ih]

/-- The word of a line carries the line's opcode (R70). -/
theorem opField_of_word {rs : List Response} {l : Line} {cw : CommandWord} (h : l.word rs = some cw) :
    opField cw = l.op.bits := by
  obtain ⟨arg, -, rfl⟩ := Option.map_eq_some_iff.mp h
  exact opBits_commandWord l.op arg

theorem Presents.map_opField {rs : List Response} {lines : List Line} {words : List CommandWord}
    (h : Presents rs lines words) : words.map opField = lines.map (fun l => l.op.bits) := by
  induction h with
  | nil => rfl
  | cons hw _ ih => rw [List.map_cons, List.map_cons, opField_of_word hw, ih]

/-- The `k`-th word is the word of the `k`-th line over the responses to the words before it. -/
theorem Presents.getElem? {rs : List Response} {lines : List Line} {words : List CommandWord}
    (h : Presents rs lines words) {k : Nat} {l : Line} (hl : lines[k]? = some l) :
    ∃ cw, words[k]? = some cw ∧ l.word ((rs ++ words.map respond).take (rs.length + k)) = some cw := by
  induction h generalizing k with
  | nil => simp at hl
  | @cons rs l₀ rest cw words hw hrest ih =>
    cases k with
    | zero =>
      obtain rfl : l₀ = l := Option.some.inj hl
      exact ⟨cw, rfl, by simpa using hw⟩
    | succ k =>
      have htail := ih hl
      simpa [Nat.add_assoc, Nat.add_comm 1 k] using htail

/-- A run goes on from the next state that its first step answers (R13). -/
theorem run_succ_of_next {s t : State} (h : step s = .next t) (k : Nat) :
    Host.Core.run core (k + 1) s = Host.Core.run core k t := by
  simp only [Host.Core.run, Host.Check.core_step, h]

/-- A run stops where its first step is refused. -/
theorem run_succ_of_refused {s : State} {r : Refusal} (h : step s = .refused r) (k : Nat) :
    Host.Core.run core (k + 1) s = .refused r := by
  simp only [Host.Core.run, Host.Check.core_step, h]

/-- A run serves the words that its lines present, and goes on from there. -/
theorem run_of_presents {rs : List Response} {lines : List Line} {words : List CommandWord}
    (h : Presents rs lines words) (s : State) (hrs : s.responses = rs) (hp : s.pending = lines) :
    ∃ t : State, (∀ k, Host.Core.run core (lines.length + k) s = Host.Core.run core k t) ∧ t.pending = [] ∧
      t.presented = s.presented ++ words ∧ t.responses = s.responses ++ words.map respond := by
  induction h generalizing s with
  | nil => exact ⟨s, fun k => by rw [List.length_nil, Nat.zero_add], hp, by simp, by simp⟩
  | @cons rs l rest cw words hw _ ih =>
    have hstep := step_eq_served hp (hrs ▸ hw)
    obtain ⟨t, hrun, hpt, hpres, hresp⟩ := ih (State.served { s with pending := rest } cw) (by simp [hrs]) rfl
    refine ⟨t, fun k => ?_, hpt, by simp [hpres], by simp [hresp]⟩
    rw [List.length_cons, Nat.add_right_comm, run_succ_of_next hstep, hrun]

/-- Settles O50: the lines present words, the run serves them, and after them no line is left. -/
theorem runsCompleteWithTheirResponses : Obligations.RunsCompleteWithTheirResponses := by
  intro s hwf
  obtain ⟨words, hwords⟩ := exists_presents s.pending s.responses hwf
  obtain ⟨t, hrun, hp, hpres, hresp⟩ := run_of_presents hwords s rfl rfl
  refine ⟨t, words, hrun 0, hp, hwords.length_eq, hwords.map_opField, fun k l hl => ?_, hpres, hresp, ?_⟩
  · rw [hresp]
    exact hwords.getElem? hl
  · rw [hrun 1, run_succ_of_refused (step_of_no_line hp)]

-- == Several instances ==

theorem serveAt_eq_modify (p : Platform) (k : Nat) (cw : CommandWord) :
    p.serveAt k cw = p.modify k (·.served cw) := by
  simp only [Platform.serveAt, serve_eq_served]

@[simp] theorem serveAll_cons (p : Platform) (e : Nat × CommandWord) (schedule : List (Nat × CommandWord)) :
    p.serveAll (e :: schedule) = (p.serveAt e.1 e.2).serveAll schedule := rfl

/-- What a schedule leaves of one block: the words scheduled for it are served, and no other word reaches it (R131). -/
theorem serveAll_getElem? (schedule : List (Nat × CommandWord)) (p : Platform) (k : Nat) :
    (p.serveAll schedule)[k]? = p[k]?.map ((wordsFor k schedule).foldl State.served) := by
  induction schedule generalizing p with
  | nil => simp [Platform.serveAll, wordsFor]
  | cons e schedule ih =>
    rw [serveAll_cons, ih, serveAt_eq_modify, List.getElem?_modify]
    by_cases he : e.1 = k
    · simp [he, wordsFor, Function.comp_def]
    · simp [he, wordsFor]

theorem serveAll_length (schedule : List (Nat × CommandWord)) (p : Platform) :
    (p.serveAll schedule).length = p.length := by
  induction schedule generalizing p with
  | nil => rfl
  | cons e schedule ih => rw [serveAll_cons, ih, serveAt_eq_modify, List.length_modify]

theorem foldl_served_fields (words : List CommandWord) (s : State) :
    (words.foldl State.served s).responses = s.responses ++ words.map respond ∧
      (words.foldl State.served s).presented = s.presented ++ words ∧
      (words.foldl State.served s).pending = s.pending := by
  induction words generalizing s with
  | nil => simp
  | cons cw words ih => simp [ih]

/-- Settles O52: each block of the platform ends as if it had served its own words alone. -/
theorem instancesShareNothing : Obligations.InstancesShareNothing := by
  intro p schedule k s hk
  refine ⟨serveAll_length schedule p, (wordsFor k schedule).foldl State.served s, ?_, foldl_served_fields _ s⟩
  rw [serveAll_getElem?, hk, Option.map_some]

end Sys2Proof.Machine
end

section
/-! What every command does, said from the command (`10_state.md` section 1, `20_memory.md` section 7): it drives one
response, which depends on the command alone; the encoders agree and the decoders agree (R92, R106). The same block built
of gates (D20): the modulo-2 sum as a tree of exclusive ors, the code and its decoder bit by bit. -/

namespace Sys2Proof.Machine

-- == Every command ==

/-- A command drives `respond` of its own word, from every state (R61). -/
theorem exec_eq_drive_respond (i : Instr) (s : State) : exec i s = .next (drive (respond (encode i)) s) := by
  rw [← exec_decode, decode_encode]

/-- Settles O15: driving a response writes the two output buses and appends that response. -/
theorem commandsChangeOnlyTheResponse : Obligations.CommandsChangeOnlyTheResponse := by
  intro i s
  exact ⟨_, exec_eq_drive_respond i s, rfl, rfl, rfl, rfl, rfl⟩

/-- Settles O17: both next states carry `respond` of the word. -/
theorem responseIndependentOfHistory : Obligations.ResponseIndependentOfHistory := by
  intro cw s s'
  exact ⟨_, _, serve_next cw s, serve_next cw s', rfl, rfl⟩

/-- Settles O18: in either order each word is answered `respond` of it. -/
theorem commandsCommute : Obligations.CommandsCommute := by
  intro a b s
  exact ⟨_, _, _, _, serve_next a s, serve_next b _, serve_next b s, serve_next a _, rfl, rfl, rfl, rfl⟩

/-- Settles O5: both drive the codeword of the data value. -/
theorem encodersAgree : Obligations.EncodersAgree := by
  intro x y d s
  refine ⟨⟨_, exec_encM x d s⟩, ?_⟩
  rw [exec_encM, exec_encT, encRom_eq_enc]

/-- Settles O11: all three drive the answer of the matrix decoder. -/
theorem decodersAgree : Obligations.DecodersAgree := by
  intro c s
  exact ⟨_, exec_decoder (k := .decM) (by simp) c s, exec_decoder (k := .decT) (by simp) c s,
    exec_decoder (k := .decP) (by simp) c s⟩

/-- A zero-extended result has no bit above its width (R62). -/
theorem zext7_toNat_lt {w : Nat} (v : BitVec w) : (zext7 v).toNat < 2 ^ w := by
  rw [zext7, BitVec.toNat_setWidth]
  exact (Nat.mod_le _ _).trans_lt v.isLt

/-- Settles O14: what a command drives is a zero-extended result of its width, or all 7 bits, or the 0 of the reserved
opcode. -/
theorem resultsAreZeroExtended : Obligations.ResultsAreZeroExtended := by
  intro i s
  cases i with
  | par v => exact ⟨_, exec_par v s, zext7_toNat_lt (par7 v)⟩
  | encM x d => exact ⟨_, exec_encM x d s, (enc d).isLt⟩
  | encT x d => exact ⟨_, exec_encT x d s, (encRom d).isLt⟩
  | syn c => exact ⟨_, answer_next _ s, zext7_toNat_lt (syn c)⟩
  | decM c => exact ⟨_, answer_next _ s, zext7_toNat_lt (dec c)⟩
  | decT c => exact ⟨_, answer_next _ s, zext7_toNat_lt (decRom c)⟩
  | decP c => exact ⟨_, answer_next _ s, zext7_toNat_lt (decPacked c)⟩
  | rsvd7 x => exact ⟨_, raiseIllegalCommand_next s, Nat.one_pos⟩

-- == The gate design (D20) ==

/-- The modulo-2 sum of seven bits is the tree of six XOR gates (R81). -/
theorem oddWeight_eq_parGates (v : BitVec 7) : oddWeight v = parGates v := by
  have hrange : List.range 7 = [0, 1, 2, 3, 4, 5, 6] := rfl
  rw [oddWeight_eq_foldr_xor, hrange, parGates]
  simp only [List.foldr_cons, List.foldr_nil, Bool.false_xor, Bool.xor_assoc, Bool.xor_comm]

/-- `par7` is the modulo-2 sum, as one bit (R10, R12). -/
theorem par7_eq_ofBool_oddWeight (v : BitVec 7) : par7 v = BitVec.ofBool (oddWeight v) := by
  have h := par7_zext7_getLsbD (Nat.le_refl 7) v
  rw [zext7, BitVec.setWidth_eq] at h
  refine BitVec.eq_of_getLsbD_eq fun k hk => ?_
  obtain rfl : k = 0 := by omega
  rw [h, BitVec.getLsbD_ofBool, decide_eq_true rfl, Bool.true_and]

/-- Settles O28: the sum is the exclusive or of the bits, and conjunction and exclusive or keep it linear. -/
theorem parityLaws : Obligations.ParityLaws := by
  refine ⟨by decide, by decide, fun v => ?_, fun m a b => ?_⟩
  · rw [par7_eq_ofBool_oddWeight, oddWeight_eq_parGates, parGates]
    simp only [Bool.xor_assoc]
  · simp only [par7_eq_ofBool_oddWeight, and_xor_distrib_left, oddWeight_xor, BitVec.ofBool_xor_ofBool]

/-- The data bits of a codeword stand in its low four bits (R94 (a)). -/
theorem enc_getLsbD_of_lt (d : DataValue) {k : Nat} (hk : k < 4) : (enc d).getLsbD k = d.getLsbD k := by
  rw [← enc_dataBits d, BitVec.getLsbD_extractLsb', decide_eq_true hk, Bool.true_and, Nat.zero_add, enc_dataBits]

/-- Bit `6-i` of a codeword is the exclusive or of the data bits that row `i` selects, for any matrix (R90). -/
theorem encWith_getLsbD_of_positions {gt : Table DataValue 7} {i : Fin 7} {ks : List Nat}
    (hks : (List.range 4).filter (readTable gt i).getLsbD = ks) (d : DataValue) :
    (encWith gt d).getLsbD (6 - i.val) = ks.foldr (fun k acc => acc ^^ d.getLsbD k) false :=
  (encWith_getLsbD gt d i).trans (oddWeight_and_of_positions hks d)

/-- Row 0 of GT selects data bits 2, 1 and 0 (R93). -/
theorem enc_getLsbD_six (d : DataValue) : (enc d).getLsbD 6 = (d.getLsbD 2 ^^ d.getLsbD 1 ^^ d.getLsbD 0) := by
  rw [← Bool.false_xor (d.getLsbD 2)]
  exact encWith_getLsbD_of_positions (gt := Tables.GT) (i := 0) (ks := [0, 1, 2]) (by decide) d

/-- Row 1 of GT selects data bits 3, 1 and 0 (R93). -/
theorem enc_getLsbD_five (d : DataValue) : (enc d).getLsbD 5 = (d.getLsbD 3 ^^ d.getLsbD 1 ^^ d.getLsbD 0) := by
  rw [← Bool.false_xor (d.getLsbD 3)]
  exact encWith_getLsbD_of_positions (gt := Tables.GT) (i := 1) (ks := [0, 1, 3]) (by decide) d

/-- Row 2 of GT selects data bits 3, 2 and 0 (R93). -/
theorem enc_getLsbD_four (d : DataValue) : (enc d).getLsbD 4 = (d.getLsbD 3 ^^ d.getLsbD 2 ^^ d.getLsbD 0) := by
  rw [← Bool.false_xor (d.getLsbD 3)]
  exact encWith_getLsbD_of_positions (gt := Tables.GT) (i := 2) (ks := [0, 2, 3]) (by decide) d

/-- Settles O3: the command drives `enc d`, whose parity bits are those of the rows and whose data bits are in place. -/
theorem encMAnswersParityEquations : Obligations.EncMAnswersParityEquations := by
  intro x d s
  exact ⟨enc d, exec_encM x d s, enc_getLsbD_six d, enc_getLsbD_five d, enc_getLsbD_four d,
    fun k => enc_getLsbD_of_lt d k.isLt⟩

/-- A value of three bits is its wires side by side. -/
theorem eq_threeWires : ∀ v : BitVec 3,
    v = BitVec.ofBool (v.getLsbD 2) ++ BitVec.ofBool (v.getLsbD 1) ++ BitVec.ofBool (v.getLsbD 0) := by
  decide

/-- A value of four bits is its wires side by side. -/
theorem eq_fourWires : ∀ v : BitVec 4,
    v = BitVec.ofBool (v.getLsbD 3) ++ BitVec.ofBool (v.getLsbD 2) ++ BitVec.ofBool (v.getLsbD 1) ++
      BitVec.ofBool (v.getLsbD 0) := by
  decide

/-- A codeword is its parity bits and then its data bits (R24). -/
theorem eq_parityBits_append_dataBits (c : Codeword) : c = c.extractLsb' 4 3 ++ c.extractLsb' 0 4 :=
  (ignoredField_append_dataField c).symm

/-- The encoder is three 3-input XORs and four wires (R93). -/
theorem enc_eq_encGates (d : DataValue) : enc d = encGates d := by
  have hparity := eq_threeWires ((enc d).extractLsb' 4 3)
  simp only [BitVec.getLsbD_extractLsb', Nat.reduceAdd, Nat.reduceLT, decide_true, Bool.true_and, enc_getLsbD_six,
    enc_getLsbD_five, enc_getLsbD_four] at hparity
  rw [eq_parityBits_append_dataBits (enc d), hparity, enc_dataBits]
  rfl

/-- The syndrome is three 4-input XORs (R100). -/
theorem syn_eq_synGates (c : Codeword) : syn c = synGates c := by
  rw [eq_threeWires (syn c), syn_getLsbD_two, syn_getLsbD_one, syn_getLsbD_zero, synGates]

/-- A data bit of the answer is that of the word, inverted where the correction mask has its bit (R101). -/
theorem dec_getLsbD (c : Codeword) {k : Nat} (hk : k < 4) :
    (dec c).getLsbD k = (c.getLsbD k ^^ (correctionMask c).getLsbD k) := by
  have hdec : dec c = (c ^^^ correctionMask c).extractLsb' 0 4 := rfl
  rw [hdec, BitVec.getLsbD_extractLsb', decide_eq_true hk, Bool.true_and, Nat.zero_add, BitVec.getLsbD_xor]

/-- Each data bit of the correction mask is set by its own syndrome alone (R102). -/
theorem readTableAt_SMASK_dataBits (v : Syndrome) :
    (readTableAt Tables.SMASK v).getLsbD 3 = (!v.getLsbD 2 && v.getLsbD 1 && v.getLsbD 0) ∧
    (readTableAt Tables.SMASK v).getLsbD 2 = (v.getLsbD 2 && !v.getLsbD 1 && v.getLsbD 0) ∧
    (readTableAt Tables.SMASK v).getLsbD 1 = (v.getLsbD 2 && v.getLsbD 1 && !v.getLsbD 0) ∧
    (readTableAt Tables.SMASK v).getLsbD 0 = (v.getLsbD 2 && v.getLsbD 1 && v.getLsbD 0) := by
  revert v
  decide

/-- The decoder is four conditional inversions (R102). -/
theorem dec_eq_decGates (c : Codeword) : dec c = decGates c := by
  obtain ⟨hthree, htwo, hone, hzero⟩ := readTableAt_SMASK_dataBits (syn c)
  rw [syn_getLsbD_two, syn_getLsbD_one, syn_getLsbD_zero] at hthree htwo hone hzero
  rw [eq_fourWires (dec c)]
  rw [dec_getLsbD c (k := 3) (by decide), dec_getLsbD c (k := 2) (by decide), dec_getLsbD c (k := 1) (by decide),
    dec_getLsbD c (k := 0) (by decide), correctionMask, hthree, htwo, hone, hzero, decGates]

/-- The two designs answer every word alike (D20). -/
theorem respond_eq_respondGates (cw : CommandWord) : respond cw = respondGates cw := by
  obtain ⟨op, arg, rfl⟩ := exists_commandWord cw
  have hpar : par7 arg = BitVec.ofBool (parGates arg) := by rw [par7_eq_ofBool_oddWeight, oddWeight_eq_parGates]
  have hdecT : decRom arg = decGates arg := by rw [decRom_eq_dec, dec_eq_decGates]
  have hdecP : decPacked arg = decGates arg := by rw [decPacked_eq_decRom, hdecT]
  have hencT : encRom (dataField arg) = encGates (dataField arg) := by rw [encRom_eq_enc, enc_eq_encGates]
  simp only [respond, respondGates, opBits_commandWord, argBits_commandWord]
  cases op with
  | par => exact congrArg (fun b : BitVec 1 => Response.mk 0 (zext7 b)) hpar
  | encM => exact congrArg (Response.mk 0) (enc_eq_encGates (dataField arg))
  | encT => exact congrArg (Response.mk 0) hencT
  | syn => exact congrArg (fun v : Syndrome => Response.mk 0 (zext7 v)) (syn_eq_synGates arg)
  | decM => exact congrArg (fun d : DataValue => Response.mk 0 (zext7 d)) (dec_eq_decGates arg)
  | decT => exact congrArg (fun d : DataValue => Response.mk 0 (zext7 d)) hdecT
  | decP => exact congrArg (fun d : DataValue => Response.mk 0 (zext7 d)) hdecP
  | rsvd7 => rfl

/-- Settles O19: serving a word drives `respond` of it, which is what the gates answer. -/
theorem gateDesignEquivalent : Obligations.GateDesignEquivalent := by
  intro cw s
  exact ⟨_, serve_next cw s, respond_eq_respondGates cw⟩

end Sys2Proof.Machine
end

section
/-! The systematic codes (`10_state.md` section 3.2, `41_encode.md` R94, R95): for any choice of the four parity patterns,
a codeword is the sum of the patterns of the set data bits and then the data bits, and the syndrome of a word is the
difference between its parity bits and those of its data bits. Whatever the laws of this hardware's code say of the
words of syndrome 0 follows from these two equations. -/

namespace Sys2Proof.Machine

-- == Weights of words put side by side ==

/-- The set bits of two values side by side are those of the one and those of the other. -/
theorem weight_append {m n : Nat} (a : BitVec m) (b : BitVec n) : weight (a ++ b) = weight a + weight b := by
  have hrange : List.range (m + n) = List.range n ++ (List.range m).map (n + ·) := by
    rw [Nat.add_comm, List.range_add]
  have hlow : (List.range n).countP (a ++ b).getLsbD = weight b :=
    List.countP_congr fun k hk => by rw [BitVec.getLsbD_append, if_pos (List.mem_range.mp hk)]
  have hhigh : ((List.range m).map (n + ·)).countP (a ++ b).getLsbD = weight a := by
    rw [List.countP_map]
    exact List.countP_congr fun k _ => by simp [BitVec.getLsbD_append]
  rw [weight, hrange, List.countP_append, hlow, hhigh, Nat.add_comm]

/-- The modulo-2 sum of two values side by side (R10). -/
theorem oddWeight_append {m n : Nat} (a : BitVec m) (b : BitVec n) :
    oddWeight (a ++ b) = (oddWeight a ^^ oddWeight b) := by
  rw [oddWeight, oddWeight, oddWeight, weight_append]
  rcases Nat.mod_two_eq_zero_or_one (weight a) with ha | ha <;>
    rcases Nat.mod_two_eq_zero_or_one (weight b) with hb | hb <;> simp [Nat.add_mod, ha, hb]

-- == The code of a choice of patterns ==

/-- The parity bits of a data value: the sum of the patterns of its set bits (R95). -/
def Patterns.parity (p : Patterns) (d : DataValue) : BitVec 3 :=
  (if d.getLsbD 3 then p.p3 else 0) ^^^ (if d.getLsbD 2 then p.p2 else 0) ^^^
    (if d.getLsbD 1 then p.p1 else 0) ^^^ (if d.getLsbD 0 then p.p0 else 0)

/-- The bits of four wires put side by side. -/
theorem getLsbD_fourWires : ∀ a b c d : Bool,
    let v := BitVec.ofBool a ++ BitVec.ofBool b ++ BitVec.ofBool c ++ BitVec.ofBool d
    v.getLsbD 3 = a ∧ v.getLsbD 2 = b ∧ v.getLsbD 1 = c ∧ v.getLsbD 0 = d := by
  decide

/-- The inner product with a parity row is that row's bit of the parity bits (R25, R95). -/
theorem oddWeight_parityRow_and (p : Patterns) (k : Nat) (d : DataValue) :
    oddWeight (p.parityRow k &&& d) = (p.parity d).getLsbD k := by
  obtain ⟨hthree, htwo, hone, hzero⟩ :=
    getLsbD_fourWires (p.p3.getLsbD k) (p.p2.getLsbD k) (p.p1.getLsbD k) (p.p0.getLsbD k)
  have hrange : List.range 4 = [0, 1, 2, 3] := rfl
  have hterm : ∀ (q : BitVec 3) (b : Bool), (if b then q else 0).getLsbD k = (q.getLsbD k && b) := by
    intro q b
    cases b <;> simp
  rw [oddWeight_eq_foldr_xor, hrange, Patterns.parity, Patterns.parityRow]
  simp only [List.foldr_cons, List.foldr_nil, BitVec.getLsbD_and, hthree, htwo, hone, hzero, BitVec.getLsbD_xor,
    Bool.false_xor, hterm]

/-- The rows of a generator of patterns below the parity rows are the single-bit values (R25). -/
theorem readTable_gt_dataRow (p : Patterns) (k : Fin 4) :
    readTable p.gt ⟨6 - k.val, by omega⟩ = BitVec.twoPow 4 k.val := by
  fin_cases k <;> rfl

/-- Row `j` of a generator of patterns is made of bit `2-j` of the patterns (R25). -/
theorem readTable_gt_parityRow (p : Patterns) (j : Fin 3) :
    readTable p.gt ⟨j.val, by omega⟩ = p.parityRow (2 - j.val) := by
  fin_cases j <;> rfl

/-- A codeword is its parity bits and then the data value (R24, R94 (a)). -/
theorem Patterns.enc_eq_append (p : Patterns) (d : DataValue) : p.enc d = p.parity d ++ d := by
  refine BitVec.eq_of_getLsbD_eq fun k hk => ?_
  have hbit := encWith_getLsbD p.gt d ⟨6 - k, by omega⟩
  rw [show 6 - (6 - k) = k by omega] at hbit
  rw [BitVec.getLsbD_append, Patterns.enc, hbit]
  by_cases hdata : k < 4
  · rw [if_pos hdata, readTable_gt_dataRow p ⟨k, hdata⟩, oddWeight_twoPow_and]
  · rw [if_neg hdata, readTable_gt_parityRow p ⟨6 - k, by omega⟩, oddWeight_parityRow_and,
      show 2 - (6 - k) = k - 4 by omega]

/-- A row of the parity-check matrix is one parity bit and then the generator's row (R27). -/
theorem readTable_hOf (gt : Table DataValue 7) (j : Fin 3) :
    readTable (hOf gt) j = BitVec.twoPow 3 (2 - j.val) ++ readTable gt ⟨j.val, by omega⟩ := by
  have hrow : ∀ (r : DataValue) (m : BitVec 3), zext7 r ||| (m ++ 0#4) = m ++ r := by
    intro r m
    rw [zext7_dataValue, BitVec.or_append, BitVec.zero_or, BitVec.or_zero]
  fin_cases j
  · exact hrow (readTable gt 0) 4
  · exact hrow (readTable gt 1) 2
  · exact hrow (readTable gt 2) 1

/-- The syndrome of a word is the difference between its parity bits and those of its data value (R27, R100). -/
theorem Patterns.syn_append (p : Patterns) (hi : BitVec 3) (d : DataValue) :
    synWith (hOf p.gt) (hi ++ d) = hi ^^^ p.parity d := by
  have hparity : ∀ (j : Fin 3) (v : BitVec 3),
      oddWeight (BitVec.twoPow 3 (2 - j.val) &&& v) = v.getLsbD (2 - j.val) := by
    decide
  refine syndrome_ext fun j => ?_
  rw [synWith_getLsbD, readTable_hOf, BitVec.and_append, oddWeight_append, hparity, readTable_gt_parityRow,
    oddWeight_parityRow_and, BitVec.getLsbD_xor]

/-- The codewords have syndrome 0 (R28 (a)). -/
theorem Patterns.syn_enc (p : Patterns) (d : DataValue) : synWith (hOf p.gt) (p.enc d) = 0#3 := by
  rw [Patterns.enc_eq_append, Patterns.syn_append, BitVec.xor_self]

/-- The words of syndrome 0 are codewords, each of its own data bits (R103). -/
theorem Patterns.enc_dataBits_of_syn_eq_zero (p : Patterns) {c : Codeword} (h : synWith (hOf p.gt) c = 0#3) :
    p.enc (c.extractLsb' 0 4) = c := by
  rw [eq_parityBits_append_dataBits c, Patterns.syn_append, BitVec.xor_eq_zero_iff] at h
  rw [Patterns.enc_eq_append, ← h, ← eq_parityBits_append_dataBits]

/-- A word is determined by its syndrome and its data bits. -/
theorem Patterns.eq_of_syn_eq_of_dataBits_eq (p : Patterns) {a b : Codeword}
    (hsyn : synWith (hOf p.gt) a = synWith (hOf p.gt) b) (hdata : a.extractLsb' 0 4 = b.extractLsb' 0 4) : a = b := by
  rw [eq_parityBits_append_dataBits a, eq_parityBits_append_dataBits b, Patterns.syn_append, Patterns.syn_append,
    hdata, BitVec.xor_left_inj] at hsyn
  rw [eq_parityBits_append_dataBits a, eq_parityBits_append_dataBits b, hsyn, hdata]

-- == The code of this hardware ==

/-- This hardware's generator is that of candidate F (D5, log 4). -/
theorem GT_eq_gt_candidate_f : Tables.GT = Candidate.f.patterns.gt := by
  decide

/-- This hardware's parity-check matrix is the one of its generator (R27). -/
theorem H_eq_hOf_GT : Tables.H = hOf Tables.GT := by
  decide

/-- The printed correction table is the one of the parity-check matrix (R30). -/
theorem SMASK_eq_smaskOf_H : Tables.SMASK = smaskOf Tables.H := by
  decide

/-- Codewords have syndrome 0 (R28 (a)). -/
theorem syn_enc (d : DataValue) : syn (enc d) = 0#3 := by
  rw [syn, enc, H_eq_hOf_GT, GT_eq_gt_candidate_f]
  exact Candidate.f.patterns.syn_enc d

/-- The words of syndrome 0 are codewords, each of its own data bits (R103). -/
theorem enc_dataBits_of_syn_eq_zero {c : Codeword} (h : syn c = 0#3) : enc (c.extractLsb' 0 4) = c := by
  rw [syn, H_eq_hOf_GT, GT_eq_gt_candidate_f] at h
  rw [enc, GT_eq_gt_candidate_f]
  exact Candidate.f.patterns.enc_dataBits_of_syn_eq_zero h

/-- The words of syndrome 0 are exactly the codewords (R103). -/
theorem syn_eq_zero_iff (c : Codeword) : syn c = 0#3 ↔ ∃ d, enc d = c :=
  ⟨fun h => ⟨_, enc_dataBits_of_syn_eq_zero h⟩, fun ⟨d, hd⟩ => hd ▸ syn_enc d⟩

/-- The encoder is linear (R94 (b)). -/
theorem enc_xor (a b : DataValue) : enc (a ^^^ b) = enc a ^^^ enc b := by
  have hsyn : syn (enc a ^^^ enc b) = 0#3 := by rw [syn_xor, syn_enc, syn_enc, BitVec.xor_self]
  have hcodeword := enc_dataBits_of_syn_eq_zero hsyn
  rwa [BitVec.extractLsb'_xor, enc_dataBits, enc_dataBits] at hcodeword

theorem enc_zero : enc 0#4 = 0#7 := by
  have h := enc_xor 0#4 0#4
  rwa [BitVec.xor_self, BitVec.xor_self] at h

/-- Different data values have different codewords (R94 (c)). -/
theorem enc_injective {a b : DataValue} (h : enc a = enc b) : a = b := by
  rw [← enc_dataBits a, h, enc_dataBits]

-- == The decoder answers the nearest codeword ==

/-- A correction mask flips at most one bit (R29). -/
theorem weight_readTableAt_SMASK_le_one : ∀ v : Syndrome, weight (readTableAt Tables.SMASK v) ≤ 1 := by
  decide

/-- A correction mask has the syndrome that it corrects (R30). -/
theorem syn_readTableAt_SMASK : ∀ v : Syndrome, syn (readTableAt Tables.SMASK v) = v := by
  decide

/-- The corrected word is the codeword of the decoder's answer (R108 (a)). -/
theorem enc_dec (c : Codeword) : enc (dec c) = c ^^^ correctionMask c := by
  have hsyn : syn (c ^^^ correctionMask c) = 0#3 := by
    rw [syn_xor, correctionMask, syn_readTableAt_SMASK, BitVec.xor_self]
  exact enc_dataBits_of_syn_eq_zero hsyn

/-- The answer for a word is the one data value whose codeword is within one bit of it (R34). -/
theorem weight_enc_xor_le_one_iff (d : DataValue) (c : Codeword) : weight (enc d ^^^ c) ≤ 1 ↔ dec c = d := by
  refine ⟨fun h => ?_, fun h => ?_⟩
  · have hright := dec_enc_xor_of_weight_le_one d h
    rwa [← BitVec.xor_assoc, BitVec.xor_self, BitVec.zero_xor] at hright
  · rw [← h, enc_dec, BitVec.xor_comm, ← BitVec.xor_assoc, BitVec.xor_self, BitVec.zero_xor]
    exact weight_readTableAt_SMASK_le_one (syn c)

/-- Decoding without an error gives the data value back (R107). -/
theorem dec_enc (d : DataValue) : dec (enc d) = d := by
  rw [← weight_enc_xor_le_one_iff, BitVec.xor_self]
  decide

/-- An error pattern adds the answer for the pattern itself to the data value (R109). -/
theorem dec_enc_xor (d : DataValue) (e : Codeword) : dec (enc d ^^^ e) = d ^^^ dec e := by
  refine enc_injective ?_
  rw [enc_dec, enc_xor, enc_dec, correctionMask, correctionMask, syn_enc_xor, BitVec.xor_assoc]

/-- Settles O23: the answer is the syndrome, which is 0 exactly on the codewords. -/
theorem zeroSyndromeExactlyOnCodewords : Obligations.ZeroSyndromeExactlyOnCodewords := by
  intro c s
  refine ⟨_, exec_syn c s, ?_⟩
  rw [drive_rspVal, ← syn_eq_zero_iff]
  exact BitVec.append_right_inj (t₂ := 0#3) 0#4

/-- Settles O22: each decoder drives `dec c`, the data value of the nearest codeword. -/
theorem decodersAnswerNearestCodeword : Obligations.DecodersAnswerNearestCodeword := by
  intro c s k hk
  refine ⟨_, exec_decoder hk c s, rfl, fun d => ?_⟩
  rw [drive_rspVal, BitVec.append_right_inj, weight_enc_xor_le_one_iff]

/-- Settles O21: the answer is off by the answer for the error pattern, which is 0 when the pattern is within one bit of
the codeword 0. -/
theorem multiBitErrorsDecodeWrong : Obligations.MultiBitErrorsDecodeWrong := by
  intro d e s
  refine ⟨_, exec_decM _ s, rfl, by rw [drive_rspVal, dec_enc_xor], ?_⟩
  rw [drive_rspVal, BitVec.append_right_inj, ← weight_enc_xor_le_one_iff, ← BitVec.xor_assoc, BitVec.xor_self,
    BitVec.zero_xor]

/-- Settles O25: the three answers are `dec c`, its codeword, and `dec c` again; a codeword within one bit is the one of
`dec c`. -/
theorem encodeOfDecodeIsCorrectedCodeword : Obligations.EncodeOfDecodeIsCorrectedCodeword := by
  intro c x s
  refine ⟨_, _, _, exec_decM c s, exec_encM x _ _, exec_decM _ _, ?_, ?_, fun d => ?_⟩
  all_goals simp only [drive_rspVal, BitVec.extractLsb'_append_eq_right]
  · exact enc_dec c
  · rw [dec_enc]
  · rw [weight_enc_xor_le_one_iff]
    exact ⟨fun h => by rw [h], fun h => (enc_injective h).symm⟩

/-- Settles O24: by counting the 128 words once for each of the eight syndromes. -/
theorem eachSyndromeHasSixteenWords : Obligations.EachSyndromeHasSixteenWords := by
  unfold Obligations.EachSyndromeHasSixteenWords
  decide

/-- Settles O26: the difference of two codewords is the codeword of the difference, and a codeword other than 0 has three
bits set or more. -/
theorem codeHasMinimumDistanceThree : Obligations.CodeHasMinimumDistanceThree := by
  have hweight : ∀ d : DataValue, d ≠ 0#4 → 3 ≤ weight (enc d) := by decide
  refine ⟨fun d => ⟨enc_dataBits d, syn_enc d⟩, enc_zero, fun a b => ⟨enc_xor a b, enc_injective, fun hne => ?_⟩,
    by decide⟩
  rw [← enc_xor]
  exact hweight _ (mt BitVec.xor_eq_zero_iff.mp hne)

/-- Settles O27: a corrupted codeword has the syndrome of its error pattern, and a single-bit pattern that of its
column. -/
theorem syndromeLaws : Obligations.SyndromeLaws :=
  ⟨syn_xor, fun d => ⟨syn_enc d, fun b => syn_enc_xor d (1 <<< b.val)⟩, by decide⟩

/-- Refutes O53: the answer is 6 (`95_test_vectors.md` V9). -/
theorem not_doubleErrorDecodesRight : ¬ Obligations.DoubleErrorDecodesRight := by
  have hsix : dec (enc 5 ^^^ 0x03) = 6 := by decide
  rw [Obligations.DoubleErrorDecodesRight, hsix]
  decide

/-- Refutes O54: at the word 0x06 the table decoder answers 0xE and the other nibble of the unit is 0x7 (V7). -/
theorem not_swappedNibblesAgree : ¬ Obligations.SwappedNibblesAgree := by
  intro h
  exact absurd (h 0x06) (by decide)

end Sys2Proof.Machine
end

section
/-! Where the tables come from (`10_state.md` section 3, `70_reset_and_hazards.md` section 2): the rows of G, the law of
SMASK, the decode table, and that the order of the rows of H changes no decode result, since the derived correction table
asks only which single-bit words have the syndrome of the word received. -/

namespace Sys2Proof.Machine

/-- The single-bit values of the statements and of the derived tables, written as powers of two. -/
theorem natCast_one_shiftLeft (w k : Nat) : ((1 <<< k : Nat) : BitVec w) = BitVec.twoPow w k := by
  refine BitVec.eq_of_toNat_eq ?_
  rw [BitVec.natCast_eq_ofNat, BitVec.toNat_ofNat, BitVec.toNat_twoPow, Nat.one_shiftLeft]

/-- Settles O29: the inner product of row `i` with a single-bit data value is that bit of the row. -/
theorem generatorRowsAreCodewords : Obligations.GeneratorRowsAreCodewords := by
  refine ⟨by decide, fun i k => ?_⟩
  rw [enc, encWith_getLsbD, natCast_one_shiftLeft, BitVec.and_comm, oddWeight_twoPow_and]

/-- SMASK maps the syndrome of a single-bit word to that word (R30). -/
theorem correctionMask_twoPow (b : Fin 7) : correctionMask (BitVec.twoPow 7 b.val) = BitVec.twoPow 7 b.val := by
  have hweight : ∀ b : Fin 7, weight (BitVec.twoPow 7 b.val) ≤ 1 := by decide
  exact correctionMask_of_weight_le_one (hweight b)

/-- Settles O30: the entry at the syndrome of a word is its correction mask. -/
theorem syndromeTableLaw : Obligations.SyndromeTableLaw := by
  refine ⟨rfl, fun b => ?_⟩
  rw [readTableAt_eq_getElem, natCast_one_shiftLeft]
  refine (congrArg some (correctionMask_twoPow b)).trans ?_
  exact congrArg some (natCast_one_shiftLeft 7 b).symm

/-- Settles O32: the read of the table at a word is the matrix decoder's answer. -/
theorem decodeTableLaw : Obligations.DecodeTableLaw := by
  intro c
  rw [readTableAt_eq_getElem, ← decRom, decRom_eq_dec]

/-- A table of `2^w` entries is the list of its reads. -/
theorem entries_eq_map_readTableAt {α : Type} {w : Nat} (t : Table α (2 ^ w)) :
    t.entries = (List.range (2 ^ w)).map fun i => readTableAt t (BitVec.ofNat w i) := by
  refine List.ext_getElem? fun i => ?_
  by_cases hi : i < 2 ^ w
  · simp [hi, getElem?_eq_readTableAt t hi]
  · simp [hi, t.size_eq]

/-- A table is its entries. -/
theorem table_eq_of_entries_eq {α : Type} {n : Nat} {t u : Table α n} (h : t.entries = u.entries) : t = u := by
  obtain ⟨entries, hsize⟩ := t
  obtain rfl : entries = u.entries := h
  rfl

/-- The printed decode table is the one of this hardware's matrix decoder (R34). -/
theorem DEC_ROM_eq_decRomOf : Tables.DEC_ROM = decRomOf Tables.H Tables.SMASK := by
  refine table_eq_of_entries_eq ?_
  rw [entries_eq_map_readTableAt, decRomOf]
  exact List.map_congr_left fun i _ => decRom_eq_dec (BitVec.ofNat 7 i)

/-- Settles O34: each printed table is the one that its rule makes of the tables before it. -/
theorem tablesRegenerateFromPatterns : Obligations.TablesRegenerateFromPatterns :=
  ⟨GT_eq_gt_candidate_f, H_eq_hOf_GT, SMASK_eq_smaskOf_H, ENC_ROM_eq_encRomOf, DEC_ROM_eq_decRomOf,
    PDEC_ROM_eq_pdecRomOf⟩

-- == The derived correction table ==

/-- The derived correction table holds the mask of each syndrome (R30). -/
theorem readTableAt_smaskOf (h : Table Codeword 3) (v : Syndrome) : readTableAt (smaskOf h) v = maskOf h v := by
  have hv : v.toNat < 8 := v.isLt
  have hentry := readTableAt_eq_getElem (smaskOf h) v
  simpa [smaskOf, hv] using hentry.symm

/-- The derived correction table depends on the matrix only through which words have one syndrome. -/
theorem decWith_smaskOf_congr {h h' : Table Codeword 3}
    (hsyn : ∀ a b, synWith h a = synWith h b ↔ synWith h' a = synWith h' b) (c : Codeword) :
    decWith h (smaskOf h) c = decWith h' (smaskOf h') c := by
  have hfind : (fun b : Nat => synWith h (1 <<< b) == synWith h c) =
      fun b : Nat => synWith h' (1 <<< b) == synWith h' c := by
    funext b
    rw [Bool.eq_iff_iff, beq_iff_eq, beq_iff_eq, hsyn]
  simp only [decWith, correctWith, readTableAt_smaskOf, maskOf, hfind]

/-- The entries of a table are what its reads answer. -/
theorem mem_entries_iff {α : Type} {n : Nat} (t : Table α n) (a : α) : a ∈ t.entries ↔ ∃ i, readTable t i = a := by
  rw [List.mem_iff_get]
  exact ⟨fun ⟨i, hi⟩ => ⟨i.cast t.size_eq, hi⟩, fun ⟨i, hi⟩ => ⟨i.cast t.size_eq.symm, hi⟩⟩

/-- Two words have one syndrome when they have the same inner product with every row, in whatever order (R27). -/
theorem synWith_eq_iff (h : Table Codeword 3) (a b : Codeword) :
    synWith h a = synWith h b ↔ ∀ row ∈ h.entries, oddWeight (row &&& a) = oddWeight (row &&& b) := by
  refine ⟨fun heq row hrow => ?_, fun hrows => syndrome_ext fun j => ?_⟩
  · obtain ⟨j, rfl⟩ := (mem_entries_iff h row).mp hrow
    rw [← synWith_getLsbD, heq, synWith_getLsbD]
  · rw [synWith_getLsbD, synWith_getLsbD]
    exact hrows _ ((mem_entries_iff h _).mpr ⟨j, rfl⟩)

/-- Settles O37: a word has the syndrome of a single-bit word in one order of the rows exactly when it has in another. -/
theorem decodingIndependentOfRowOrder : Obligations.DecodingIndependentOfRowOrder := by
  intro rows h hperm c
  rw [dec, SMASK_eq_smaskOf_H]
  refine decWith_smaskOf_congr (fun a b => ?_) c
  simp only [synWith_eq_iff, hperm.mem_iff]

end Sys2Proof.Machine
end

section
/-! The six generator candidates (`41_encode.md` R95, `92_eei_decisions.md` D5): the code of a choice of patterns corrects
every single-bit error exactly when the seven single-bit words have seven different syndromes, and the source's two
vectors fix one pattern and the sum of all four. -/

namespace Sys2Proof.Machine

/-- All six candidates of D5. -/
def candidates : List Candidate := [.a, .b, .c, .d, .e, .f]

theorem mem_candidates (k : Candidate) : k ∈ candidates := by
  cases k <;> decide

/-- The syndromes of the seven single-bit words, bit 0 first. -/
def Patterns.columns (p : Patterns) : List Syndrome :=
  positions.map fun b => synWith (hOf p.gt) (BitVec.twoPow 7 b)

/-- The single-bit words, bit 0 first, as parity bits and data bits (R24). -/
theorem positions_map_twoPow : positions.map (BitVec.twoPow 7) =
    [0#3 ++ 1#4, 0#3 ++ 2#4, 0#3 ++ 4#4, 0#3 ++ 8#4, 1#3 ++ 0#4, 2#3 ++ 0#4, 4#3 ++ 0#4] := by
  decide

/-- Those syndromes are the four patterns and the three single-bit values (R27, R95). -/
theorem Patterns.columns_eq (p : Patterns) : p.columns = [p.p0, p.p1, p.p2, p.p3, 1, 2, 4] := by
  have hwords : p.columns = (positions.map (BitVec.twoPow 7)).map (synWith (hOf p.gt)) := rfl
  rw [hwords, positions_map_twoPow]
  simp only [List.map_cons, List.map_nil, Patterns.syn_append]
  simp [Patterns.parity]

/-- The codeword of the data value 0 (R94 (b)). -/
theorem Patterns.enc_zero (p : Patterns) : p.enc 0#4 = 0#7 := by
  rw [Patterns.enc_eq_append]
  simp [Patterns.parity]

/-- The data bits of the answer are those of the word, with those of the correction mask inverted (R101). -/
theorem decWith_eq_xor (h : Table Codeword 3) (smask : Table Codeword (2 ^ 3)) (c : Codeword) :
    decWith h smask c = c.extractLsb' 0 4 ^^^ (readTableAt smask (synWith h c)).extractLsb' 0 4 := by
  rw [decWith, correctWith, BitVec.extractLsb'_xor]

/-- Two words of one syndrome that decode alike are one word. -/
theorem Patterns.eq_of_syn_eq_of_dec_eq (p : Patterns) {a b : Codeword}
    (hsyn : synWith (hOf p.gt) a = synWith (hOf p.gt) b) (hdec : p.dec a = p.dec b) : a = b := by
  rw [Patterns.dec, Patterns.dec, decWith_eq_xor, decWith_eq_xor, hsyn, BitVec.xor_left_inj] at hdec
  exact p.eq_of_syn_eq_of_dataBits_eq hsyn hdec

/-- The single-bit words of different positions are different. -/
theorem twoPow_inj_on_positions :
    ∀ a ∈ positions, ∀ b ∈ positions, BitVec.twoPow 7 a = BitVec.twoPow 7 b → a = b := by
  decide

/-- If the seven syndromes differ, the derived correction table gives a single-bit word back from its syndrome (R30). -/
theorem Patterns.maskOf_syn_twoPow (p : Patterns) (hcol : p.columns.Nodup) (b : Fin 7) :
    maskOf (hOf p.gt) (synWith (hOf p.gt) (BitVec.twoPow 7 b.val)) = BitVec.twoPow 7 b.val := by
  have hself : ∀ b : Fin 7, positions.find? (fun a => a == b.val) = some b.val := by decide
  have hb : b.val ∈ positions := List.mem_of_find?_eq_some (hself b)
  have hfind : positions.find? (fun a => synWith (hOf p.gt) (BitVec.twoPow 7 a) ==
      synWith (hOf p.gt) (BitVec.twoPow 7 b.val)) = positions.find? (fun a => a == b.val) :=
    List.find?_congr fun a ha => by
      rw [Bool.eq_iff_iff, beq_iff_eq, beq_iff_eq]
      exact ⟨fun h => List.inj_on_of_nodup_map hcol ha hb h, fun h => by rw [h]⟩
  simp only [maskOf, natCast_one_shiftLeft, hfind, hself b]

/-- A code corrects every single-bit error of every codeword exactly when the seven single-bit words have seven
different syndromes. -/
theorem Patterns.corrects_iff (p : Patterns) :
    (∀ (d : DataValue) (b : Fin 7), p.dec (p.enc d ^^^ BitVec.twoPow 7 b.val) = d) ↔ p.columns.Nodup := by
  refine ⟨fun h => ?_, fun hcol d b => ?_⟩
  · have hzero : ∀ b ∈ positions, p.dec (BitVec.twoPow 7 b) = 0#4 := by
      intro b hb
      have hflipped := h 0#4 ⟨b, List.mem_range.mp hb⟩
      rwa [p.enc_zero, BitVec.zero_xor] at hflipped
    refine List.Nodup.map_on (fun a ha b hb hsyn => ?_) (by decide)
    exact twoPow_inj_on_positions a ha b hb (p.eq_of_syn_eq_of_dec_eq hsyn ((hzero a ha).trans (hzero b hb).symm))
  · rw [Patterns.dec, decWith, correctWith, synWith_xor, p.syn_enc, BitVec.zero_xor, readTableAt_smaskOf,
      p.maskOf_syn_twoPow hcol b, BitVec.xor_assoc, BitVec.xor_self, BitVec.xor_zero, p.enc_eq_append,
      BitVec.extractLsb'_append_eq_right]

/-- `enc(1)` = 0x71 fixes the pattern of bit 0 (R95 (iii)). -/
theorem Patterns.enc_one_iff (p : Patterns) : p.enc 0x1 = 0x71 ↔ p.p0 = 7 := by
  have hparity : p.parity 1 = p.p0 := by simp [Patterns.parity]
  rw [p.enc_eq_append, hparity]
  exact BitVec.append_left_inj (s₂ := 7#3) 1#4

/-- `enc(0xF)` = 0x7F fixes the sum of the four patterns (R95 (iv)). -/
theorem Patterns.enc_fifteen_iff (p : Patterns) : p.enc 0xF = 0x7F ↔ p.p3 ^^^ p.p2 ^^^ p.p1 ^^^ p.p0 = 7 := by
  have hparity : p.parity 0xF = p.p3 ^^^ p.p2 ^^^ p.p1 ^^^ p.p0 := by simp [Patterns.parity]
  rw [p.enc_eq_append, hparity]
  exact BitVec.append_left_inj (s₂ := 7#3) 0xF#4

/-- What the source says of a generator, as a condition on its four patterns. -/
theorem Patterns.meetsSource_iff (p : Patterns) :
    p.meetsSource ↔ p.p0 = 7 ∧ p.p3 ^^^ p.p2 ^^^ p.p1 ^^^ p.p0 = 7 ∧ [p.p0, p.p1, p.p2, p.p3, 1, 2, 4].Nodup := by
  simp only [Patterns.meetsSource, natCast_one_shiftLeft, p.enc_one_iff, p.enc_fifteen_iff, p.corrects_iff,
    p.columns_eq]

/-- Settles O35: the pattern of bit 0 is 7, the other three sum to 0, and all seven syndromes differ, which leaves the six
orders of 3, 5 and 6. -/
theorem sourceLeavesSixGenerators : Obligations.SourceLeavesSixGenerators := by
  have hsix : ∀ p1 p2 : BitVec 3, [7, p1, p2, p2 ^^^ p1, 1, 2, 4].Nodup →
      ∃ k ∈ candidates, k.patterns = ⟨7, p1, p2, p2 ^^^ p1⟩ := by
    decide
  have hmeets : ∀ k ∈ candidates, k.patterns.p0 = 7 ∧
      k.patterns.p3 ^^^ k.patterns.p2 ^^^ k.patterns.p1 ^^^ k.patterns.p0 = 7 ∧
      [k.patterns.p0, k.patterns.p1, k.patterns.p2, k.patterns.p3, 1, 2, 4].Nodup := by
    decide
  intro p
  rw [p.meetsSource_iff]
  refine ⟨fun ⟨hp0, hsum, hcol⟩ => ?_, fun ⟨k, hk⟩ => hk ▸ hmeets k (mem_candidates k)⟩
  obtain ⟨p0, p1, p2, p3⟩ := p
  obtain rfl : p0 = 7 := hp0
  obtain rfl : p3 = p2 ^^^ p1 := by
    have hzero : p3 ^^^ p2 ^^^ p1 = 0#3 := (BitVec.xor_left_inj 7#3).mp hsum
    rwa [BitVec.xor_assoc, BitVec.xor_eq_zero_iff] at hzero
  obtain ⟨k, -, hk⟩ := hsix p1 p2 hcol
  exact ⟨k, hk⟩

/-- Settles O36: by comparing the six codewords of each of the sixteen data values. -/
theorem fourCodewordsSharedByCandidates : Obligations.FourCodewordsSharedByCandidates := by
  have hshared : ∀ d : DataValue, (∀ k ∈ candidates, k.patterns.enc d = enc d) ↔ d ∈ [0x0, 0x1, 0xE, 0xF] := by
    decide
  intro d
  rw [← hshared]
  exact ⟨fun h k _ => h k, fun h k => h k (mem_candidates k)⟩

end Sys2Proof.Machine
end
